-- ==== Sys2Proof/Word.lean ====
section
/-! DEFINITION. The two word types of the cowi core and the narrowing of an integer to a cell
(spec/00_scope.md R6, R12; spec/10_state.md R21). -/

namespace Sys2Proof

/-- A byte of the source buffer, of the input or of the output (00 R6; 20 R40). -/
abbrev Byte := BitVec 8

/-- A cell value: 32 bits read as signed two's complement (00 R6; 10 R21). Its signed reading is `BitVec.toInt`. -/
abbrev CellVal := BitVec 32

/-- `wrap32 n`: the cell value congruent to `n` modulo 2^32 (00 R6). -/
def wrap32 (n : Int) : CellVal := BitVec.ofInt 32 n

end Sys2Proof
end

