-- ==== Sys2Proof/Syntax.lean ====
section
/-! DEFINITION. The instruction set (spec/30_encoding.md R60, R65) and the alphabet of its tokens (R62).
No instruction has an operand field (R65), so every constructor is a bare name. -/

namespace Sys2Proof

/-- The closed enumeration of 12 instructions (30 R60), in the order of spec/opcode_table.json (code order, R72). -/
inductive Instr where
  | endLoop
  | decrementPointer
  | incrementPointer
  | executeValue
  | readOrWrite
  | decrementByte
  | incrementByte
  | beginLoop
  | setZero
  | copyOrPaste
  | writeStdout
  | readStdin
  deriving DecidableEq, Repr

/-- The alphabet of the tokens: the four letters M, m, O, o (30 R62). -/
inductive Letter where
  | bigM
  | smallM
  | bigO
  | smallO
  deriving DecidableEq, Repr

end Sys2Proof
end

