-- ==== Sys2Proof/WellFormed.lean ====
section
/-! DEFINITION. The checks on syntax. An instruction has no operand, so there is nothing about it to refuse (30 R65); what can be
ill-formed is the 4-bit element of a hardware program store (30 R70) and a triple that uses a byte outside the alphabet (30 R68). -/

namespace Sys2Proof

/-- Every instruction is well-formed: it has no field that could hold a wrong value (30 R65). -/
def Instr.wf (_ : Instr) : Bool := true

/-- A 4-bit element of a hardware program store is one of the codes 0 to 11: "values 12 to 15 never occur in `prog`" (30 R70). -/
def storedCodeWf (c : BitVec 4) : Bool := decide (c.toNat < 12)

/-- Is the byte one of the letters M (0x4D), m (0x6D), O (0x4F), o (0x6F) (30 R62)? -/
def isAlphabetByte (b : Byte) : Bool := b = 0x4D#8 || b = 0x6D#8 || b = 0x4F#8 || b = 0x6F#8

/-- A candidate token: three bytes, each a letter of the alphabet (30 R61, R62). 64 triples pass; 12 of them are tokens (R66). -/
def tokenLettersWf (t : List Byte) : Bool := decide (t.length = 3) && t.all isAlphabetByte

end Sys2Proof
end

