-- ==== Sys2Proof/Decode.lean ====
section
/-! DEFINITION. The two encodings of an instruction in ONE table (spec/30_encoding.md R60 to R72), the token decoder, the whole decode
of a source buffer (spec/40_decoder.md R82), and the encoder. -/

namespace Sys2Proof

/-- The byte of a letter, its ASCII code (30 R62).
UNVERIFIED (log 25): the source gives no byte values; the spec supplies them. Unsafe if wrong. -/
def letterByte : Letter → Byte
  | .bigM => 0x4D#8
  | .smallM => 0x6D#8
  | .bigO => 0x4F#8
  | .smallO => 0x6F#8

/-- One row of the bidirectional table of 30 R60: a token of three letters and a code. -/
structure EncodingRow where
  first  : Letter
  second : Letter
  third  : Letter
  code   : Nat
  deriving DecidableEq, Repr

/-- TOKEN and CODE in one table (30 R60, R63, R64).
UNVERIFIED (log 1): five of the tokens are the spec's decision D1. UNVERIFIED (log 2): all codes are its decision D2. Unsafe if wrong. -/
def encodingRow : Instr → EncodingRow
  | .endLoop          => ⟨.smallM, .smallO, .smallO, 0⟩
  | .decrementPointer => ⟨.smallM, .bigO, .smallO, 1⟩
  | .incrementPointer => ⟨.smallM, .smallO, .bigO, 2⟩
  | .executeValue     => ⟨.smallM, .bigO, .bigO, 3⟩
  | .readOrWrite      => ⟨.bigM, .smallO, .smallO, 4⟩
  | .decrementByte    => ⟨.bigM, .bigO, .smallO, 5⟩
  | .incrementByte    => ⟨.bigM, .smallO, .bigO, 6⟩
  | .beginLoop        => ⟨.bigM, .bigO, .bigO, 7⟩
  | .setZero          => ⟨.bigO, .bigO, .bigO, 8⟩
  | .copyOrPaste      => ⟨.bigM, .bigM, .bigM, 9⟩
  | .writeStdout      => ⟨.bigO, .bigO, .bigM, 10⟩
  | .readStdin        => ⟨.smallO, .smallO, .smallM, 11⟩

/-- The 12 instructions, the range of every search of the table (30 R60). -/
def allInstrs : List Instr :=
  [.endLoop, .decrementPointer, .incrementPointer, .executeValue, .readOrWrite, .decrementByte,
   .incrementByte, .beginLoop, .setZero, .copyOrPaste, .writeStdout, .readStdin]

/-- TOKEN_LEN, the bytes of a token (00 R5). -/
def tokenLen : Nat := 3

/-- TOKEN: the three bytes of an instruction, first letter at the lowest source index (30 R61, R63). -/
def tokenBytes (i : Instr) : Byte × Byte × Byte :=
  (letterByte (encodingRow i).first, letterByte (encodingRow i).second, letterByte (encodingRow i).third)

/-- CODE: the integer 0 to 11 of an instruction (30 R64). -/
def code (i : Instr) : Nat := (encodingRow i).code

/-- `InstrOfCode`, the inverse of CODE: an instruction for 0 to 11, none elsewhere (30 R64, R67). -/
def instrOfCode (n : Int) : Option Instr := allInstrs.find? fun i => decide ((code i : Int) = n)

/-- The instruction whose token is the triple, if there is one: exact, case-sensitive equality of three bytes (30 R61; 40 R84). -/
def instrOfToken (b0 b1 b2 : Byte) : Option Instr := allInstrs.find? fun i => decide (tokenBytes i = (b0, b1, b2))

/-- Why a list of bytes does not begin with a token. Neither is a failure of the machine: the scan stops, or moves on by a byte (40 R82, R89). -/
inductive DecodeReject where
  /-- Fewer than 3 bytes remain (40 R82). -/
  | tooShort
  /-- The first three bytes are none of the 12 tokens (30 R66). -/
  | notAToken
  deriving DecidableEq, Repr

/-- Read the token at the head of the bytes: the instruction and the bytes after it, or why there is none (40 R82). -/
def decode : List Byte → Except DecodeReject (Instr × List Byte)
  | b0 :: b1 :: b2 :: rest =>
    match instrOfToken b0 b1 b2 with
    | some i => .ok (i, rest)
    | none => .error .notAToken
  | _ => .error .tooShort

/-- `Decode(src)`, the whole decode as a function of the source buffer: leftmost match, a token consumed whole, any other byte
skipped alone (40 R82, R85). -/
def decodeProgram : List Byte → List Instr
  | b0 :: b1 :: b2 :: rest =>
    match instrOfToken b0 b1 b2 with
    | some i => i :: decodeProgram rest
    | none => decodeProgram (b1 :: b2 :: rest)
  | _ => []

/-- The source bytes of an instruction: its token (30 R63). -/
def encode (i : Instr) : List Byte :=
  [letterByte (encodingRow i).first, letterByte (encodingRow i).second, letterByte (encodingRow i).third]

/-- The source bytes of a program: its tokens one after another (70 R193). -/
def encodeProgram (p : List Instr) : List Byte := p.flatMap encode

/-- The packed token, first byte most significant (00 R6; 30 R61, R72). -/
def packedToken (i : Instr) : Nat :=
  (tokenBytes i).1.toNat * 65536 + (tokenBytes i).2.1.toNat * 256 + (tokenBytes i).2.2.toNat

/-- The 4-bit element that a hardware program store holds for an instruction (30 R70). The model's `prog` holds the variant itself (log 20). -/
def storedCode (i : Instr) : BitVec 4 := BitVec.ofNat 4 (code i)

/-- The instruction of a stored 4-bit element; none for 12 to 15, which never occur (30 R70). -/
def instrOfStoredCode (c : BitVec 4) : Option Instr := instrOfCode c.toNat

/-- The bytes of a packed token in source order: bits 23:16, 15:8, 7:0 (30 R61). -/
def bytesOfPacked (w : Nat) : List Byte := [BitVec.ofNat 8 (w / 65536), BitVec.ofNat 8 (w / 256), BitVec.ofNat 8 w]

/-- The instruction this decoder reads from the low `nbits` bits of `w`, numbered as spec/opcode_table.json numbers them: the packed token,
bit 0 the least significant bit of its THIRD byte (00 R6; 30 R72). None where the bits are no token.
DEDUCED (log 18): the table packs the first byte most significant, so the one 24-bit word is laid out highest byte first. Safe: the host's query only. -/
def decodeTableWord (nbits w : Nat) : Option Instr :=
  if w % 2 ^ nbits < 2 ^ 24 then
    match decode (bytesOfPacked (w % 2 ^ nbits)) with
    | .ok (i, _) => some i
    | .error _ => none
  else none

end Sys2Proof
end

