-- ==== Sys2Proof/Config.lean ====
section
/-! DEFINITION. What is fixed for a run and is no machine state (spec/00_scope.md R5, R9): the source buffer, the input, the bindings of the
parameters the spec leaves OPEN, and the one free value of the model. -/

namespace Sys2Proof

/-- The binding of PARSE_LINE (45 R131; D10). -/
inductive ParseBinding where
  /-- The spec's recommended default. -/
  | recommended
  /-- Any function that has the required properties P1 to P3: what P1 and P2 do not fix is the free value `Config.parseLineOpen`. -/
  | anyAdmitted
  deriving DecidableEq, Repr

/-- EOF_BYTE_POLICY: what a byte read does at the end of the input (45 R135; D13). The spec admits these two bindings. -/
inductive EofBytePolicy where
  /-- The default: the step cannot complete. -/
  | stuck
  /-- The read fails with NotAscii. -/
  | failNotAscii
  deriving DecidableEq, Repr

/-- EOF_LINE_POLICY: what a line read does at the end of the input (45 R135; D14). The spec admits these two bindings. -/
inductive EofLinePolicy where
  /-- The default: the line is empty, and nothing is consumed. -/
  | emptyLine
  /-- The step cannot complete. -/
  | stuck
  deriving DecidableEq, Repr

/-- The parameters of a run (00 R5, R9; 70 R192): fixed before reset is released, written by no step.
DESIGN CHOICE (log 4): carried inside State so that a step is a function of the state. Safe: no step changes them. -/
structure Params where
  /-- `src`, the source buffer; SRC_LEN is its length. -/
  src     : List Byte
  /-- PROG_MAX, the capacity of the program store. It never binds, so no step reads it (40 R82, R87; log 19). -/
  progMax : Nat
  /-- `IN`, the whole content of the input source. -/
  input   : List Byte
  /-- The binding of PARSE_LINE. -/
  parse   : ParseBinding
  /-- EOF_BYTE_POLICY. -/
  eofByte : EofBytePolicy
  /-- EOF_LINE_POLICY. -/
  eofLine : EofLinePolicy
  deriving DecidableEq, Repr

/-- Nothing supplied and the spec's defaults bound: what `State.reset` takes.
DESIGN CHOICE (log 4, log 5, log 19): the spec gives no source buffer and no input, and PROG_MAX is the least it admits for an empty source. Unsafe: a run from `State.reset` alone says nothing of a real run. -/
def Params.unsupplied : Params := ⟨[], 0, [], .recommended, .stuck, .emptyLine⟩

/-- What the spec requires of PROG_MAX: at least floor(SRC_LEN/3) (00 R5; D5). The other parameters admit every value of their types. -/
def Params.admitted (par : Params) : Bool := decide (par.src.length / 3 ≤ par.progMax)

/-- FREE VALUE (log 5): what PARSE_LINE returns, under the binding `anyAdmitted`, on a line that P1 and P2 of 45 R131 leave open.
No body: nothing can be proved of it but what holds of every function of the line. -/
opaque Config.parseLineOpen : List Byte → Option CellVal

end Sys2Proof
end

