-- ==== Sys2Proof/Machine/State.lean ====
section
/-! DEFINITION. The state of the cowi core (spec/10_state.md R20 to R31), the reasons a step can stop, and the state after reset. -/

namespace Sys2Proof.Machine

/-- Which part of the machine is active (10 R28; D4). -/
inductive Phase where
  | decode
  | run
  | done
  | failed
  deriving DecidableEq, Repr

/-- The seven failure kinds (60 R165), in the order of their codes (R166). A failure is an outcome of the MACHINE: the step that raises it
answers a NEXT state with `phase = failed` (R175). -/
inductive Failure where
  | overflow
  | invalidCode
  | infiniteLoop
  | notAscii
  | notInteger
  | unmatchedBeginLoop
  | unmatchedEndLoop
  deriving DecidableEq, Repr

/-- Why no step is enabled. None of these is a failure of the machine: the state stays as it is. -/
inductive Fault where
  /-- Raised by ReadOrWrite's read path (or an ExecuteValue that dispatches it) at the end of the input under EOF_BYTE_POLICY `stuck`: "the step
  cannot complete" (45 R135). Safe: the machine is neither Done nor Failed, so nothing about a finished run follows (log 8). -/
  | stuckOnByteRead
  /-- Raised by ReadStdin (or an ExecuteValue that dispatches it) at the end of the input under EOF_LINE_POLICY `stuck` (45 R135). Safe (log 8). -/
  | stuckOnLineRead
  /-- Raised by any use of the current cell when `ptr` is not below TAPE_LEN: MemRead and MemWrite are defined only inside the tape (20 R41). No run
  reaches such a state (42 R112). Safe (log 11). -/
  | noSuchCell
  /-- Raised by a fetch when `pc` is beyond len(prog). No run reaches such a state (41 R105). Safe (log 11). -/
  | noSuchInstruction
  deriving DecidableEq, Repr

/-- Why an instruction has no meaning. -/
inductive Refusal where
  /-- Raised by an arm of `exec` for an instruction not modelled yet; no arm raises it now. Safe: the run stops. -/
  | notModelled (mnemonic : String)
  deriving DecidableEq, Repr

/-- The tape (10 R21) as a list of (cell index, cell value), indices strictly rising, no value 0: an unlisted cell reads 0, as after reset (R31).
DESIGN CHOICE (log 3): entries are whole cells, since no instruction addresses part of a cell (20 R41, R42). Safe. -/
abbrev Tape := List (Nat × CellVal)

/-- The ten elements of 10 R20, and the parameters of the run (00 R9). -/
structure State where
  /-- `mem`, the Memory (10 R21). -/
  mem   : Tape
  /-- `ptr`, the data pointer (10 R22). -/
  ptr   : Nat
  /-- `pc`, the program counter: an index into `prog` (10 R23). -/
  pc    : Nat
  /-- `reg`, the Register: empty, or holding one cell value (10 R24). -/
  reg   : Option CellVal
  /-- `prog`, the Program (10 R25). -/
  prog  : List Instr
  /-- `cur`, the decoder's scan cursor (10 R26). -/
  cur   : Nat
  /-- `in_pos`, the number of input bytes already taken (10 R27). -/
  inPos : Nat
  /-- `out`, the bytes written so far (10 R27). -/
  out   : List Byte
  /-- `phase` (10 R28). -/
  phase : Phase
  /-- `fail`: the failure kind when `phase = failed` (10 R28). -/
  fail  : Option Failure
  /-- The parameters of the run, which no step writes (00 R9). -/
  par   : Params
  deriving DecidableEq, Repr

/-- What a meaning answers. -/
abbrev Result := Host.Outcome State Fault Refusal

/-- Reset with the parameters of a run (70 R190, R192): every element at the value of 10 R31; nothing of an earlier run survives.
UNVERIFIED (log 26): the resets of `in_pos`, `out`, `phase`, `fail` and `prog` are the spec's decision D18. Unsafe if wrong. -/
def State.resetWith (par : Params) : State :=
  { mem := [], ptr := 0, pc := 0, reg := none, prog := [], cur := 0, inPos := 0, out := [],
    phase := .decode, fail := none, par := par }

/-- The machine right after reset, with no source buffer and no input supplied (10 R31; log 4). -/
def State.reset : State := State.resetWith Params.unsupplied

end Sys2Proof.Machine
end

