-- ==== Sys2Proof/Machine/Ops.lean ====
section
/-! DEFINITION. The named operations over the state: the tape (spec/20_memory.md R41), one update per element (spec/10_state.md R30),
the channels (spec/45_io.md R125, R126, R130), raising a failure (spec/60_exceptions.md R175), the post-increment (spec/41_vm_cycle.md R99). -/

namespace Sys2Proof.Machine

/-! ### The tape -/

/-- TAPE_LEN, the number of cells (00 R5; 10 R21).
UNVERIFIED (log 24): the literals of the source are unaudited (00 R11). Unsafe if wrong. -/
def tapeLen : Nat := 30000

/-- The value of a cell in a tape's list: the listed value, or 0, the reset value of every cell (10 R31). -/
def Tape.get : Tape → Nat → CellVal
  | [], _ => 0#32
  | (k, w) :: rest, a => if k = a then w else Tape.get rest a

/-- The list with cell `a` set to `v`, in canonical form: sorted, and no entry 0. -/
def Tape.put : Tape → Nat → CellVal → Tape
  | [], a, v => if v = 0#32 then [] else [(a, v)]
  | (k, w) :: rest, a, v =>
    if k < a then (k, w) :: Tape.put rest a v
    else if k = a then (if v = 0#32 then rest else (a, v) :: rest)
    else (if v = 0#32 then (k, w) :: rest else (a, v) :: (k, w) :: rest)

/-- `MemRead(a, 1)`: the cell value at index `a`; none outside the tape, where it is not defined (20 R41). -/
def Tape.read (m : Tape) (a : Nat) : Option CellVal := if a < tapeLen then some (Tape.get m a) else none

/-- `MemWrite(a, 1, v)`: cell `a` set to `v` and no other cell changed; none outside the tape, where it is not defined (20 R41). -/
def Tape.write (m : Tape) (a : Nat) (v : CellVal) : Option Tape := if a < tapeLen then some (Tape.put m a v) else none

/-- The indices of the list rise strictly from above `low`, stay inside the tape, and no value is 0. -/
def Tape.wfFrom : Nat → Tape → Bool
  | _, [] => true
  | low, (k, w) :: rest => decide (low ≤ k) && decide (k < tapeLen) && decide (w ≠ 0#32) && Tape.wfFrom (k + 1) rest

/-- The canonical form of a tape: equal memories are equal lists (log 3). -/
def Tape.wf (m : Tape) : Bool := Tape.wfFrom 0 m

/-! ### One update per element (10 R30: a write to one element changes no other) -/

def State.setMem (s : State) (m : Tape) : State := { s with mem := m }
def State.setPtr (s : State) (p : Nat) : State := { s with ptr := p }
def State.setPc (s : State) (n : Nat) : State := { s with pc := n }
def State.setReg (s : State) (r : Option CellVal) : State := { s with reg := r }
def State.setCur (s : State) (n : Nat) : State := { s with cur := n }
def State.setInPos (s : State) (n : Nat) : State := { s with inPos := n }
def State.setPhase (s : State) (p : Phase) : State := { s with phase := p }
/-- `prog <- prog ++ [i]`, the decoder's append (40 R82). -/
def State.pushInstr (s : State) (i : Instr) : State := { s with prog := s.prog ++ [i] }
/-- `Out(bytes)`: append to the output sink; it always succeeds (45 R126; D23, log 22). -/
def State.output (s : State) (bytes : List Byte) : State := { s with out := s.out ++ bytes }

/-! ### Failures -/

/-- `fail(kind)`, the entry of a failure: `phase` and `fail` are set, and every other element is left as it stands, `pc` included (60 R175).
UNVERIFIED (log 12): what a failing step leaves is the spec's decision D7. There is no return from a failure: `Failed` is absorbing and only reset,
`State.resetWith`, leaves it (60 R176; 10 R28). -/
def State.takeFailure (s : State) (k : Failure) : State := { s with phase := .failed, fail := some k }

/-- `raise <Kind>`: end the step with the failure (00 R7; 60 R175). A failure is a next state of the machine. -/
def raise (k : Failure) (s : State) : Result := .next (s.takeFailure k)

/-- The number of a failure kind on the status interface (60 R166).
UNVERIFIED (log 27): the numbers are the spec's decision D6. Safe: no program observes them. -/
def Failure.number : Failure → Nat
  | .overflow => 1
  | .invalidCode => 2
  | .infiniteLoop => 3
  | .notAscii => 4
  | .notInteger => 5
  | .unmatchedBeginLoop => 6
  | .unmatchedEndLoop => 7

/-- The status the host reads: `phase`, and the number of `fail` with 0 for none (60 R166, R175; 70 R192). -/
def State.status (s : State) : Phase × Nat :=
  (s.phase, match s.fail with
    | none => 0
    | some k => k.number)

/-! ### Advancing -/

/-- The post-increment: `pc + 1` after a step that succeeded, nothing after one that failed (41 R99, R100). -/
def State.postIncrement (s : State) : State := if s.phase = .failed then s else s.setPc (s.pc + 1)

/-! ### The input channel -/

/-- What a read of the input finds. -/
inductive Taken (α : Type) where
  /-- Something was taken: what, and the machine with `in_pos` advanced past it. -/
  | got (a : α) (s : State)
  /-- The input is exhausted (45 R135). -/
  | endOfInput
  deriving DecidableEq, Repr

/-- `InByte()` up to the end of input: the byte at `in_pos`, which is consumed (45 R125). -/
def takeByte (s : State) : Taken Byte :=
  match s.par.input[s.inPos]? with
  | some b => .got b (s.setInPos (s.inPos + 1))
  | none => .endOfInput

/-- The bytes up to and with the first line feed 0x0A, or all of them if there is none (45 R130).
UNVERIFIED (log 14): the line feed as the only terminator is the spec's decision D9. Unsafe if wrong. -/
def firstLine : List Byte → List Byte
  | [] => []
  | b :: rest => if b = 0x0A#8 then [b] else b :: firstLine rest

/-- `InLine()` up to the end of input: the line at `in_pos` with its terminator, all of which is consumed (45 R130). -/
def takeLine (s : State) : Taken (List Byte) :=
  match s.par.input.drop s.inPos with
  | [] => .endOfInput
  | b :: rest => .got (firstLine (b :: rest)) (s.setInPos (s.inPos + (firstLine (b :: rest)).length))

end Sys2Proof.Machine
end

