-- ==== Sys2Proof/Machine/Operands.lean ====
section
/-! DEFINITION. The one addressing mode: the current cell `mem[ptr]` (spec/20_memory.md R41; spec/30_encoding.md R65), and the arithmetic
and the conversions on its value (spec/43_cell.md R118; spec/45_io.md R132, R134). -/

namespace Sys2Proof.Machine

/-- Read the current cell and go on with its value: `v <- MemRead(ptr, 1)` (20 R41). Outside the tape there is no cell (log 11). -/
def withCurrentCell (s : State) (k : CellVal → Result) : Result :=
  match Tape.read s.mem s.ptr with
  | some v => k v
  | none => .fault .noSuchCell

/-- Write the current cell: `MemWrite(ptr, 1, v)` (20 R41). Outside the tape there is no cell (log 11). -/
def storeCurrentCell (v : CellVal) (s : State) : Result :=
  match Tape.write s.mem s.ptr v with
  | some m => .next (s.setMem m)
  | none => .fault .noSuchCell

/-- `wrap32(v + 1)` (43 R116, R118). -/
def cellIncrement (v : CellVal) : CellVal := wrap32 (v.toInt + 1)

/-- `wrap32(v - 1)` (43 R115, R118). -/
def cellDecrement (v : CellVal) : CellVal := wrap32 (v.toInt - 1)

/-- `zext_32(b)` (00 R6; 45 R132). -/
def cellOfByte (b : Byte) : CellVal := b.setWidth 32

/-- BYTE_OF_CELL: the low 8 bits of the two's-complement pattern (45 R134).
UNVERIFIED (log 16): outside 1 to 255 this is the spec's decision D12. Unsafe there if wrong. -/
def byteOfCell (v : CellVal) : Byte := v.setWidth 8

end Sys2Proof.Machine
end

