-- ==== Sys2Proof/Machine/CellOps.lean ====
section
/-! DEFINITION. The cell instructions (spec/43_cell.md R115 to R118). -/

namespace Sys2Proof.Machine

/-- DecrementByte: the whole 32-bit cell less 1, wrapping (43 R115). -/
def execDecrementByte (s : State) : Result :=
  withCurrentCell s fun v => storeCurrentCell (cellDecrement v) s

/-- IncrementByte: the whole 32-bit cell plus 1, wrapping (43 R116). -/
def execIncrementByte (s : State) : Result :=
  withCurrentCell s fun v => storeCurrentCell (cellIncrement v) s

/-- SetZero: the cell is written 0 and not read (43 R117). -/
def execSetZero (s : State) : Result := storeCurrentCell 0#32 s

end Sys2Proof.Machine
end

