-- ==== Sys2Proof/Machine/Flags.lean ====
section
/-! DEFINITION. The machine has no flags and no condition codes (spec/10_state.md R29): an instruction tests its condition directly.
These are all the conditions there are (spec/43_cell.md R118), each written once. -/

namespace Sys2Proof.Machine

/-- A cell against 0 (BeginLoop, EndLoop, ReadOrWrite; 43 R118). -/
def isZeroCell (v : CellVal) : Bool := decide (v.toInt = 0)

/-- `ptr` at the lower end of the tape (DecrementPointer; 42 R110). -/
def atTapeStart (s : State) : Bool := decide (s.ptr = 0)

/-- `ptr` at the upper end of the tape, `TAPE_LEN - 1` (IncrementPointer; 42 R111).
DESIGN CHOICE (log 11): a pointer already past the end, which no run reaches, counts as at the end: "at/above 30000 is a fatal bounds violation" (10 R22). Safe. -/
def atTapeEnd (s : State) : Bool := decide (tapeLen ≤ s.ptr + 1)

/-- A cell value that is no code: below 0 or above 11, on the signed value (ExecuteValue; 46 R140; 30 R67). -/
def isInvalidCode (v : CellVal) : Bool := decide (v.toInt < 0) || decide (11 < v.toInt)

/-- `IsAscii(b)`: at most 0x7F (45 R133).
UNVERIFIED (log 15): the range is the spec's decision D11. Unsafe if wrong. -/
def isAscii (b : Byte) : Bool := decide (b.toNat ≤ 0x7F)

/-- `reg_full`, the occupancy of the Register, the only predicate-like state (10 R24). -/
def State.regFull (s : State) : Bool := s.reg.isSome

end Sys2Proof.Machine
end

