-- ==== Sys2Proof/Machine/Text.lean ====
section
/-! DEFINITION. Decimal text: DEC_STRING (spec/45_io.md R128) and PARSE_LINE (spec/45_io.md R131) under each of its bindings. -/

namespace Sys2Proof.Machine

/-! ### DEC_STRING -/

/-- The ASCII digit of a number below 10 (45 R128). -/
def digitByte (n : Nat) : Byte := BitVec.ofNat 8 (0x30 + n)

/-- The decimal digits of `n`, most significant first, no leading zero, `0` for 0; exact when `n` has at most `fuel + 1` digits (45 R128). -/
def decDigits : Nat → Nat → List Byte
  | 0, n => [digitByte (n % 10)]
  | fuel + 1, n => if n < 10 then [digitByte n] else decDigits fuel (n / 10) ++ [digitByte (n % 10)]

/-- `DEC_STRING(v)`: a minus sign 0x2D for a negative value, then the digits of its absolute value, of which a cell has at most 10 (45 R128).
UNVERIFIED (log 13): sign, zero and leading zeros are the spec's decision D8. Unsafe if wrong. -/
def decString (v : CellVal) : List Byte :=
  if v.toInt < 0 then 0x2D#8 :: decDigits 9 v.toInt.natAbs else decDigits 9 v.toInt.natAbs

/-! ### PARSE_LINE -/

def isDigitByte (b : Byte) : Bool := decide (0x30 ≤ b.toNat) && decide (b.toNat ≤ 0x39)

/-- Space 0x20 or tab 0x09 (45 R131). -/
def isBlankByte (b : Byte) : Bool := decide (b = 0x20#8) || decide (b = 0x09#8)

/-- The bytes less ONE trailing `b`, if there is one. -/
def dropTrailing (b : Byte) (l : List Byte) : List Byte := if l.getLast? = some b then l.dropLast else l

/-- The bytes without their leading and trailing blanks. -/
def trimBlanks (l : List Byte) : List Byte := ((l.dropWhile isBlankByte).reverse.dropWhile isBlankByte).reverse

/-- The value of a sequence of digit bytes in base 10, leading zeros allowed. -/
def digitsValue (l : List Byte) : Nat := l.foldl (fun n b => 10 * n + (b.toNat - 0x30)) 0

/-- One or more digits and nothing else. -/
def parseDigits (l : List Byte) : Option Nat := if !l.isEmpty && l.all isDigitByte then some (digitsValue l) else none

/-- An optional sign, `+` 0x2B or `-` 0x2D, followed by one or more digits and nothing else. -/
def parseSigned : List Byte → Option Int
  | [] => none
  | b :: rest =>
    if b = 0x2B#8 then (parseDigits rest).map fun n : Nat => (n : Int)
    else if b = 0x2D#8 then (parseDigits rest).map fun n : Nat => -(n : Int)
    else (parseDigits (b :: rest)).map fun n : Nat => (n : Int)

/-- An integer as a cell value, if it lies in -2147483648 to 2147483647: out of range is no value, never a wrapped one (45 R129, R131). -/
def cellOfInt (n : Int) : Option CellVal := if -2147483648 ≤ n ∧ n ≤ 2147483647 then some (wrap32 n) else none

/-- The recommended default of PARSE_LINE (45 R131): less one trailing 0x0A, then one trailing 0x0D, then blanks trimmed, then a signed literal in range. -/
def parseRecommended (line : List Byte) : Option CellVal :=
  (parseSigned (trimBlanks (dropTrailing 0x0D#8 (dropTrailing 0x0A#8 line)))).bind cellOfInt

/-- The value that property P1 forces on a line: `v` where the line is `DEC_STRING(v)`, with or without a line feed after it (45 R131).
The recommended default has P1, so the only candidate is what it returns. -/
def parseForced (line : List Byte) : Option CellVal :=
  (parseRecommended line).bind fun v => if dropTrailing 0x0A#8 line = decString v then some v else none

/-- Any function with P1 to P3: a line with no digit is no integer (P2), a canonical line is its value (P1), and every other line takes the free
value of Config (45 R131; log 5). Every admitted PARSE_LINE is this function for its own choice of `Config.parseLineOpen`. -/
def parseAnyAdmitted (line : List Byte) : Option CellVal :=
  if line.any isDigitByte then
    match parseForced line with
    | some v => some v
    | none => Config.parseLineOpen line
  else none

/-- `PARSE_LINE(line)` under the run's binding (45 R131). -/
def parseLine : ParseBinding → List Byte → Option CellVal
  | .recommended, line => parseRecommended line
  | .anyAdmitted, line => parseAnyAdmitted line

end Sys2Proof.Machine
end

