-- ==== Sys2Proof/Machine/Io.lean ====
section
/-! DEFINITION. The input and output instructions (spec/45_io.md R125 to R138). -/

namespace Sys2Proof.Machine

/-- WriteStdout: append the decimal text of the whole cell, nothing before or after it (45 R127). -/
def execWriteStdout (s : State) : Result :=
  withCurrentCell s fun v => .next (s.output (decString v))

/-- Store what PARSE_LINE makes of a line that has been taken, or fail with NotInteger, the line staying consumed (45 R129; D19, log 12). -/
def storeParsedLine (line : List Byte) (s : State) : Result :=
  match parseLine s.par.parse line with
  | some v => storeCurrentCell v s
  | none => raise .notInteger s

/-- ReadStdin: take one line, parse it, store it. At the end of the input EOF_LINE_POLICY decides: the empty line, nothing consumed, or stuck (45 R129, R135;
log 7). -/
def execReadStdin (s : State) : Result :=
  match takeLine s with
  | .got line s' => storeParsedLine line s'
  | .endOfInput =>
    match s.par.eofLine with
    | .emptyLine => storeParsedLine [] s
    | .stuck => .fault .stuckOnLineRead

/-- The read path of ReadOrWrite: take one byte; store it zero-extended if it is ASCII, else fail with NotAscii, the byte staying consumed (45 R132; D19, log 12).
At the end of the input EOF_BYTE_POLICY decides: stuck, or NotAscii (45 R135; log 6). -/
def readPath (s : State) : Result :=
  match takeByte s with
  | .got b s' => if isAscii b then storeCurrentCell (cellOfByte b) s' else raise .notAscii s'
  | .endOfInput =>
    match s.par.eofByte with
    | .stuck => .fault .stuckOnByteRead
    | .failNotAscii => raise .notAscii s

/-- ReadOrWrite: the read path when the cell is 0, else the cell's low byte is written and the cell is left as it is (45 R132, R134). -/
def execReadOrWrite (s : State) : Result :=
  withCurrentCell s fun v => if isZeroCell v then readPath s else .next (s.output [byteOfCell v])

end Sys2Proof.Machine
end

