-- ==== Sys2Proof/Machine/Search.lean ====
section
/-! DEFINITION. The bracket search (spec/47_loops.md R152 to R157): two pure functions of the program and the origin (R156). -/

namespace Sys2Proof.Machine

/-- The nesting counter after the forward scan meets an instruction (47 R152). It is an unbounded integer (47 R157; D20). -/
def countForward (i : Instr) (c : Int) : Int :=
  match i with
  | .beginLoop => c + 1
  | .endLoop => c - 1
  | _ => c

/-- The nesting counter after the backward scan meets an instruction (47 R153). -/
def countBackward (i : Instr) (c : Int) : Int :=
  match i with
  | .endLoop => c + 1
  | .beginLoop => c - 1
  | _ => c

/-- Scan the rest of the program, whose first element has index `i`, with the counter at `c` (47 R152). -/
def scanForward : List Instr → Nat → Int → Option Nat
  | [], _, _ => none
  | x :: rest, i, c => if countForward x c = 0 then some i else scanForward rest (i + 1) (countForward x c)

/-- `FindFwd(prog, origin)`: start at origin + 2 with the counter at 1 (47 R152, R154). -/
def findFwd (prog : List Instr) (origin : Nat) : Option Nat := scanForward (prog.drop (origin + 2)) (origin + 2) 1

/-- Scan the indices below `n`, from `n - 1` down to 0, with the counter at `c` (47 R153). -/
def scanBackward (prog : List Instr) : Nat → Int → Option Nat
  | 0, _ => none
  | i + 1, c =>
    match prog[i]? with
    | some x => if countBackward x c = 0 then some i else scanBackward prog i (countBackward x c)
    | none => scanBackward prog i c

/-- `FindBwd(prog, origin)`: start at origin - 2, which may be below 0, with the counter at 1 (47 R153, R154). -/
def findBwd (prog : List Instr) (origin : Nat) : Option Nat := scanBackward prog (origin - 1) 1

end Sys2Proof.Machine
end

