-- ==== Sys2Proof/Machine/Loops.lean ====
section
/-! DEFINITION. The loop instructions (spec/47_loops.md R150, R151, R155). A jump leaves `pc` ON the matched bracket; the post-increment passes it. -/

namespace Sys2Proof.Machine

/-- BeginLoop: with the cell 0, jump to the EndLoop the forward search finds, or fail with UnmatchedEndLoop; else nothing (47 R150). -/
def execBeginLoop (s : State) : Result :=
  withCurrentCell s fun v =>
    if isZeroCell v then
      match findFwd s.prog s.pc with
      | some i => .next (s.setPc i)
      | none => raise .unmatchedEndLoop s
    else .next s

/-- EndLoop: with the cell not 0, jump to the BeginLoop the backward search finds, or fail with UnmatchedBeginLoop; else nothing (47 R151). -/
def execEndLoop (s : State) : Result :=
  withCurrentCell s fun v =>
    if isZeroCell v then .next s
    else
      match findBwd s.prog s.pc with
      | some i => .next (s.setPc i)
      | none => raise .unmatchedBeginLoop s

end Sys2Proof.Machine
end

