-- ==== Sys2Proof/Machine/Pointer.lean ====
section
/-! DEFINITION. The pointer instructions (spec/42_pointer.md R110 to R112). -/

namespace Sys2Proof.Machine

/-- DecrementPointer: `ptr - 1`, or Overflow at 0, never a wrap (42 R110). -/
def execDecrementPointer (s : State) : Result :=
  if atTapeStart s then raise .overflow s else .next (s.setPtr (s.ptr - 1))

/-- IncrementPointer: `ptr + 1`, or Overflow at TAPE_LEN - 1, never a wrap (42 R111). -/
def execIncrementPointer (s : State) : Result :=
  if atTapeEnd s then raise .overflow s else .next (s.setPtr (s.ptr + 1))

end Sys2Proof.Machine
end

