-- ==== Sys2Proof/Machine/Register.lean ====
section
/-! DEFINITION. The register instruction (spec/44_register.md R120 to R122). -/

namespace Sys2Proof.Machine

/-- CopyOrPaste: with the Register empty the current cell is copied into it; else its value is pasted into the cell and it becomes empty (44 R120). -/
def execCopyOrPaste (s : State) : Result :=
  match s.reg with
  | none => withCurrentCell s fun v => .next (s.setReg (some v))
  | some v => storeCurrentCell v (s.setReg none)

end Sys2Proof.Machine
end

