-- ==== Sys2Proof/Machine/ExecuteValue.lean ====
section
/-! DEFINITION. ExecuteValue (spec/46_execute_value.md R140 to R146). -/

namespace Sys2Proof.Machine

/-- Run the instruction a cell's code names, one level deep: ExecuteValue's own code is refused unconditionally with InfiniteLoop before any effect; every
other instruction is its own meaning on the same state, in which the cell still holds its code and `pc` is that of the step (46 R140, R142, R145, R146).
UNVERIFIED (log 17): the origin of a dispatched bracket search is the spec's decision D15. -/
def dispatchCode (j : Instr) (s : State) : Result :=
  match j with
  | .endLoop => execEndLoop s
  | .decrementPointer => execDecrementPointer s
  | .incrementPointer => execIncrementPointer s
  | .executeValue => raise .infiniteLoop s
  | .readOrWrite => execReadOrWrite s
  | .decrementByte => execDecrementByte s
  | .incrementByte => execIncrementByte s
  | .beginLoop => execBeginLoop s
  | .setZero => execSetZero s
  | .copyOrPaste => execCopyOrPaste s
  | .writeStdout => execWriteStdout s
  | .readStdin => execReadStdin s

/-- ExecuteValue: the range check, then the self check, then the dispatch (46 R140, R141). No post-increment of its own for the dispatched instruction (R143). -/
def execExecuteValue (s : State) : Result :=
  withCurrentCell s fun v =>
    if isInvalidCode v then raise .invalidCode s
    else
      match instrOfCode v.toInt with
      | some j => dispatchCode j s
      | none => raise .invalidCode s

end Sys2Proof.Machine
end

