-- ==== Sys2Proof/Machine/Dispatch.lean ====
section
/-! DEFINITION. `Exec(I)`: one arm per instruction (spec/41_vm_cycle.md R98). It does not include the post-increment (R98, R99). -/

namespace Sys2Proof.Machine

/-- `Exec(I)`, the effect of one instruction (41 R98). -/
def exec (i : Instr) (s : State) : Host.Outcome State Fault Refusal :=
  match i with
  | .endLoop => Sys2Proof.Machine.execEndLoop s
  | .decrementPointer => Sys2Proof.Machine.execDecrementPointer s
  | .incrementPointer => Sys2Proof.Machine.execIncrementPointer s
  | .executeValue => Sys2Proof.Machine.execExecuteValue s
  | .readOrWrite => Sys2Proof.Machine.execReadOrWrite s
  | .decrementByte => Sys2Proof.Machine.execDecrementByte s
  | .incrementByte => Sys2Proof.Machine.execIncrementByte s
  | .beginLoop => Sys2Proof.Machine.execBeginLoop s
  | .setZero => Sys2Proof.Machine.execSetZero s
  | .copyOrPaste => Sys2Proof.Machine.execCopyOrPaste s
  | .writeStdout => Sys2Proof.Machine.execWriteStdout s
  | .readStdin => Sys2Proof.Machine.execReadStdin s

end Sys2Proof.Machine
end

