-- ==== Sys2Proof/Machine/Cycle.lean ====
section
/-! DEFINITION. One transition of each phase: the decoder's scan action (spec/40_decoder.md R82) and the VM's step (spec/41_vm_cycle.md R102); and placing an
instruction where the VM fetches next. -/

namespace Sys2Proof.Machine

/-- `DecodeStep`: at the cursor, a token is appended and the cursor advances by 3; any other triple advances it by 1; fewer than 3 bytes remaining
hands over to the VM (40 R82, R90). -/
def scanAction (s : State) : State :=
  match decode (s.par.src.drop s.cur) with
  | .ok (i, _) => (s.pushInstr i).setCur (s.cur + tokenLen)
  | .error .notAToken => s.setCur (s.cur + 1)
  | .error .tooShort => s.setPhase .run

/-- `prog[pc]` (41 R97). -/
def fetch (s : State) : Option Instr := s.prog[s.pc]?

/-- What the end of `Exec` leaves for the next step: the post-increment after a success, nothing after a failure; a step that cannot complete stays so (41 R99, R100;
45 R135). -/
def finishStep : Result → Result
  | .next t => .next t.postIncrement
  | .fault r => .fault r
  | .refused r => .refused r

/-- `VmStep`: at len(prog) the run is Done; else fetch, execute, finish (41 R96, R97, R102). A `pc` beyond len(prog), which no run reaches, has nothing to
fetch (log 11). -/
def vmStep (s : State) : Result :=
  if s.pc = s.prog.length then .next (s.setPhase .done)
  else
    match fetch s with
    | some i => finishStep (exec i s)
    | none => .fault .noSuchInstruction

/-- The machine in phase Run with `instrs` at the program index of the next fetch, in place of the element that stood there (70 R193: a hand-built `prog` may be
executed without a decode). A `pc` beyond the end is brought back to the end, and PROG_MAX is raised where the program would not fit the store (10 R23; log 19). -/
def placeAtFetch (s : State) (instrs : List Instr) : State :=
  let p := s.prog.take s.pc ++ instrs ++ s.prog.drop (s.pc + 1)
  { s with
    prog := p, pc := min s.pc s.prog.length, phase := .run, fail := none,
    par := { s.par with progMax := max s.par.progMax p.length } }

end Sys2Proof.Machine
end

