-- ==== Sys2Proof/Machine/Step.lean ====
section
/-! DEFINITION. One step of the machine (spec/00_scope.md R10), and the host's way to place an instruction. -/

namespace Sys2Proof.Machine

/-- One step: a scan action of the decoder, a step of the VM, or, in the absorbing phases Done and Failed, nothing (10 R28; 40 R82; 41 R102; log 9). -/
def step (s : State) : Host.Outcome State Fault Refusal :=
  match s.phase with
  | .decode => .next (scanAction s)
  | .run => vmStep s
  | .done => .next s
  | .failed => .next s

/-- `s` with the instruction of the low `nbits` bits of `w` where the VM fetches next, and the VM running: this stands for the host's supply of `src` and the
decode (70 R192, R193; log 4, log 19). Bits that are no token place nothing, as the decoder appends nothing for them (30 R66). -/
def State.withFetchWord (s : State) (nbits w : Nat) : State := placeAtFetch s (decodeTableWord nbits w).toList

end Sys2Proof.Machine
end

