-- ==== Sys2Proof/Safety.lean ====
section
/-! DEFINITION. The terms the statements use: the invariants of the machine, the instruction a step acts as, the causes of a failure, and what it is for a
bracket to be the match of another, said by counting and not by scanning. -/

namespace Sys2Proof.Machine

/-! ### Invariants -/

/-- The machine is in a state its rules allow (10 R20, R22, R23, R28; 41 R96, R105; 42 R112), with the tape in the model's canonical form (log 3). -/
structure State.Inv (s : State) : Prop where
  /-- 0 <= ptr < TAPE_LEN (42 R112). -/
  ptr_in_tape : s.ptr < tapeLen
  /-- 0 <= pc <= len(prog) (41 R105). -/
  pc_in_prog : s.pc ≤ s.prog.length
  /-- The tape is in canonical form. -/
  mem_wf : Tape.wf s.mem = true
  /-- There is a failure kind exactly when the phase is Failed (10 R28). -/
  fail_iff : s.phase = .failed ↔ s.fail.isSome = true
  /-- Done is reached only at len(prog) (41 R96). -/
  done_at_end : s.phase = .done → s.pc = s.prog.length
  /-- 0 <= in_pos <= len(IN) (10 R20). -/
  input_bound : s.inPos ≤ s.par.input.length
  /-- 0 <= cur <= SRC_LEN (10 R20). -/
  cursor_bound : s.cur ≤ s.par.src.length

/-- What the decoder has done so far (40 R82, R87, R88, R90): while it scans, the program so far and the decode of the rest of the source make the whole
decode, and nothing else has left its reset value; after it, the program is the whole decode. -/
structure State.Decoded (s : State) : Prop where
  scanning : s.phase = .decode →
    s = { State.resetWith s.par with prog := s.prog, cur := s.cur } ∧
    decodeProgram s.par.src = s.prog ++ decodeProgram (s.par.src.drop s.cur) ∧ 3 * s.prog.length ≤ s.cur
  decoded : s.phase ≠ .decode → s.prog = decodeProgram s.par.src

/-! ### The instruction a step acts as -/

/-- The fetched instruction, or, where that is ExecuteValue, the one the current cell's code names (46 R140). -/
def State.actsAs (s : State) : Option Instr :=
  match s.prog[s.pc]? with
  | some .executeValue => (Tape.read s.mem s.ptr).bind fun v => instrOfCode v.toInt
  | i => i

/-! ### Causes of failure -/

/-- The table of 60 R166 for the eleven instructions other than ExecuteValue, with the end of input as the run's policies have it (45 R135). -/
def directCause (s : State) : Instr → Failure → Prop
  | .decrementPointer, .overflow => s.ptr = 0
  | .incrementPointer, .overflow => s.ptr = 29999
  | .readOrWrite, .notAscii =>
    Tape.read s.mem s.ptr = some 0#32 ∧
      ((∃ b, s.par.input[s.inPos]? = some b ∧ 0x7F < b.toNat) ∨
       (s.inPos = s.par.input.length ∧ s.par.eofByte = .failNotAscii))
  | .readStdin, .notInteger =>
    (s.inPos < s.par.input.length ∧ parseLine s.par.parse (firstLine (s.par.input.drop s.inPos)) = none) ∨
    (s.inPos = s.par.input.length ∧ s.par.eofLine = .emptyLine)
  | .endLoop, .unmatchedBeginLoop => Tape.read s.mem s.ptr ≠ some 0#32 ∧ findBwd s.prog s.pc = none
  | .beginLoop, .unmatchedEndLoop => Tape.read s.mem s.ptr = some 0#32 ∧ findFwd s.prog s.pc = none
  | _, _ => False

/-- The whole table of 60 R166: ExecuteValue raises InvalidCode, InfiniteLoop, or what the dispatched instruction raises. -/
def failureCause (s : State) : Instr → Failure → Prop
  | .executeValue, k =>
    ∃ v, Tape.read s.mem s.ptr = some v ∧
      ((k = .invalidCode ∧ (v.toInt < 0 ∨ 11 < v.toInt)) ∨
       (k = .infiniteLoop ∧ v.toInt = code .executeValue) ∨
       (∃ j, instrOfCode v.toInt = some j ∧ directCause s j k))
  | i, k => directCause s i k

/-! ### Bracket matching by counting -/

/-- The nesting counter of a forward search from `o` after the elements `o + 2` to `j`: 1, plus the BeginLoops, less the EndLoops among them (47 R152). -/
def forwardCount (p : List Instr) (o j : Nat) : Int :=
  1 + ((p.drop (o + 2)).take (j - o - 1)).count .beginLoop - ((p.drop (o + 2)).take (j - o - 1)).count .endLoop

/-- `k` is the first index from `o + 2` on at which that counter is 0 (47 R152). -/
def IsForwardMatch (p : List Instr) (o k : Nat) : Prop :=
  o + 2 ≤ k ∧ k < p.length ∧ forwardCount p o k = 0 ∧ ∀ j, o + 2 ≤ j → j < k → forwardCount p o j ≠ 0

/-- The nesting counter of a backward search from `o` after the elements `o - 2` down to `j`: 1, plus the EndLoops, less the BeginLoops among them (47 R153). -/
def backwardCount (p : List Instr) (o j : Nat) : Int :=
  1 + ((p.take (o - 1)).drop j).count .endLoop - ((p.take (o - 1)).drop j).count .beginLoop

/-- `k` is the last index up to `o - 2` at which that counter is 0 (47 R153). -/
def IsBackwardMatch (p : List Instr) (o k : Nat) : Prop :=
  k + 2 ≤ o ∧ k < p.length ∧ backwardCount p o k = 0 ∧ ∀ j, k < j → j + 2 ≤ o → backwardCount p o j ≠ 0

end Sys2Proof.Machine
end

