-- ==== Sys2Proof/Certificates/Slice0/Obligations.lean ====
section
/-! DEFINITION. The statements for the provers. Each docstring names the rule of spec/ that is stated, and the log entry of every clause that rests on a
choice. An equation `exec i s = .next { s with … }` says at once that the instruction completes, what it writes, and that it writes nothing else (its frame);
where the tape is written, the new tape is described by its reads, cell by cell. -/

open Sys2Proof Sys2Proof.Machine

/-! ### Encoding -/

/-- The seven tokens the source itself shows decode to the instructions it names (30 R63). The letters' byte values are log 25. -/
def Obligations.SourcedTokensDecode : Prop :=
  decode [0x6D#8, 0x6F#8, 0x6F#8] = .ok (.endLoop, []) ∧
  decode [0x4D#8, 0x4F#8, 0x4F#8] = .ok (.beginLoop, []) ∧
  decode [0x4F#8, 0x4F#8, 0x4F#8] = .ok (.setZero, []) ∧
  decode [0x4D#8, 0x6F#8, 0x4F#8] = .ok (.incrementByte, []) ∧
  decode [0x4F#8, 0x4F#8, 0x4D#8] = .ok (.writeStdout, []) ∧
  decode [0x4D#8, 0x4D#8, 0x4D#8] = .ok (.copyOrPaste, []) ∧
  decode [0x6D#8, 0x6F#8, 0x4F#8] = .ok (.incrementPointer, [])

/-- The table is a bijection both ways (30 R60, R64, R67): a triple names an instruction exactly when it is its token, an integer exactly when it is its
code, and the integers that name one are 0 to 11. Which code is whose is log 2, and no clause rests on it. -/
def Obligations.EncodingTableIsBijective : Prop :=
  (∀ (b0 b1 b2 : Byte) (i : Instr), instrOfToken b0 b1 b2 = some i ↔ encode i = [b0, b1, b2]) ∧
  (∀ (n : Int) (i : Instr), instrOfCode n = some i ↔ (code i : Int) = n) ∧
  (∀ n : Int, (∃ i, instrOfCode n = some i) ↔ 0 ≤ n ∧ n ≤ 11) ∧
  ∀ c : BitVec 4, (∃ i, instrOfStoredCode c = some i) ↔ storedCodeWf c = true

/-- 40 R84: three bytes are read as an instruction exactly when they equal its token in order; a triple that is no token is refused by that name, as is every
triple that holds 0x00 or a byte above 0x7F. -/
def Obligations.TokenMatchIsExact : Prop :=
  ∀ (b0 b1 b2 : Byte) (rest : List Byte),
    (∀ i, decode (b0 :: b1 :: b2 :: rest) = .ok (i, rest) ↔ encode i = [b0, b1, b2]) ∧
    ((∀ i, encode i ≠ [b0, b1, b2]) → decode (b0 :: b1 :: b2 :: rest) = .error .notAToken) ∧
    ((∃ b ∈ [b0, b1, b2], b = 0x00#8 ∨ 0x7F < b.toNat) → decode (b0 :: b1 :: b2 :: rest) = .error .notAToken)

/-- Program text decodes to the program it was written from (30 R68; 70 R193, R198): any list of instructions, each token preceded by any bytes outside the
alphabet, and any such bytes at the end. -/
def Obligations.ProgramTextDecodesToTheProgram : Prop :=
  ∀ (text : List (List Byte × Instr)) (tail : List Byte),
    (∀ x ∈ text, ∀ b ∈ x.1, isAlphabetByte b = false) → (∀ b ∈ tail, isAlphabetByte b = false) →
    decodeProgram ((text.flatMap fun x => x.1 ++ encode x.2) ++ tail) = text.map fun x => x.2

/-- The host's placed word is fetched (70 R193): the packed token of every instruction is read back, and a state with a word placed is in phase Run with that
instruction in `prog` where the one at `pc` stood, or at the end, PROG_MAX raised where the program needs it, and all else as it was. The packing is log 18, the
placing is log 4 and log 19. -/
def Obligations.PlacedWordIsFetched : Prop :=
  (∀ i, decodeTableWord 24 (packedToken i) = some i) ∧
  ∀ (s : State) (w : Nat) (i : Instr), decodeTableWord 24 w = some i →
    ∃ p n, p = s.prog.take s.pc ++ [i] ++ s.prog.drop (s.pc + 1) ∧ n = min s.pc s.prog.length ∧ p[n]? = some i ∧
      (s.pc < s.prog.length → p = s.prog.set s.pc i) ∧
      s.withFetchWord 24 w =
        { s with prog := p, pc := n, phase := .run, fail := none, par := { s.par with progMax := max s.par.progMax p.length } }

/-! ### The decoder -/

/-- 40 R82, both parts: one scan action of the machine, and the whole decode as a function of the source. -/
def Obligations.ScanFollowsTheScanningRule : Prop :=
  (∀ s : State, s.phase = .decode →
    (s.par.src.length < s.cur + 3 → step s = .next { s with phase := .run }) ∧
    ∀ b0 b1 b2 rest, s.par.src.drop s.cur = b0 :: b1 :: b2 :: rest →
      (∀ i, encode i = [b0, b1, b2] → step s = .next { s with prog := s.prog ++ [i], cur := s.cur + 3 }) ∧
      ((∀ i, encode i ≠ [b0, b1, b2]) → step s = .next { s with cur := s.cur + 1 })) ∧
  (∀ src : List Byte, src.length < 3 → decodeProgram src = []) ∧
  ∀ b0 b1 b2 rest,
    (∀ i, encode i = [b0, b1, b2] → decodeProgram (b0 :: b1 :: b2 :: rest) = i :: decodeProgram rest) ∧
    ((∀ i, encode i ≠ [b0, b1, b2]) → decodeProgram (b0 :: b1 :: b2 :: rest) = decodeProgram (b1 :: b2 :: rest))

/-- The decoder phase computes the whole decode and hands over (40 R80, R83, R90): from reset, whatever the parameters, after at most SRC_LEN - 2 matching
attempts and the stop, the machine is in phase Run with `prog` the decode of the source, the cursor among the last positions (at 0 for a source of fewer than 3
bytes), and all else as after reset. -/
def Obligations.DecoderPhaseComputesTheDecode : Prop :=
  ∀ par : Params, ∃ n c, n ≤ par.src.length - 2 + 1 ∧ c ≤ par.src.length ∧ par.src.length < c + 3 ∧ (par.src.length < 3 → c = 0) ∧
    Host.Core.run core n (State.resetWith par) =
      .next { State.resetWith par with prog := decodeProgram par.src, cur := c, phase := .run }

/-- 40 R87: a decode holds at most one instruction for each three bytes. -/
def Obligations.DecodeLengthIsAThirdOfTheSource : Prop :=
  ∀ src : List Byte, (decodeProgram src).length ≤ src.length / 3

/-- 40 R86 and 41 R103: a source with no token anywhere yields the empty program, and the run from reset is Done with all but the cursor and the phase as after
reset; a source shorter than three bytes is such a source. -/
def Obligations.SourceWithoutTokensRunsToDone : Prop :=
  (∀ par : Params, (∀ (k : Nat) (i : Instr), (par.src.drop k).take 3 ≠ encode i) →
    decodeProgram par.src = [] ∧
    ∃ n c, Host.Core.run core n (State.resetWith par) = .next { State.resetWith par with cur := c, phase := .done }) ∧
  (∀ src : List Byte, src.length < 3 → ∀ (k : Nat) (i : Instr), (src.drop k).take 3 ≠ encode i) ∧
  ∀ s : State, s.phase = .run → s.prog = [] → s.pc = 0 → step s = .next { s with phase := .done }

/-- 40 R89, R90, R91: a scan action always answers, raises no failure, touches nothing but `prog`, `cur` and `phase`, and does the same in any two states that
agree on the source, the cursor and the program so far. -/
def Obligations.ScanNeverFailsAndDependsOnSourceAlone : Prop :=
  ∀ s : State, s.phase = .decode →
    ∃ p c f, (f = Phase.decode ∨ f = Phase.run) ∧ step s = .next { s with prog := p, cur := c, phase := f } ∧
      ∀ u : State, u.phase = .decode → u.par.src = s.par.src → u.cur = s.cur → u.prog = s.prog →
        step u = .next { u with prog := p, cur := c, phase := f }

/-! ### The VM cycle -/

/-- 41 R97, R99, R100: when `prog[pc]` is there, the step is that instruction's, with `pc` one further after a success, and with nothing added after a failure or
a stop. -/
def Obligations.StepRunsTheFetchedInstruction : Prop :=
  ∀ (s : State) (i : Instr), s.phase = .run → s.prog[s.pc]? = some i →
    (∀ t, exec i s = .next t → t.phase ≠ .failed → step s = .next { t with pc := t.pc + 1 }) ∧
    (∀ t, exec i s = .next t → t.phase = .failed → step s = .next t) ∧
    (∀ r, exec i s = .fault r → step s = .fault r) ∧
    (∀ r, exec i s = .refused r → step s = .refused r)

/-- 41 R96: at len(prog) the step sets `phase` to Done and changes nothing else, no later step does anything (that it answers the same state is log 9), and there
is no other way to Done. -/
def Obligations.RunIsDoneExactlyAtProgramEnd : Prop :=
  (∀ s : State, s.phase = .run → s.pc = s.prog.length →
    step s = .next { s with phase := .done } ∧ ∀ n, Host.Core.run core (n + 1) s = .next { s with phase := .done }) ∧
  ∀ s t : State, step s = .next t → t.phase = .done → s.phase ≠ .done →
    s.phase = .run ∧ s.pc = s.prog.length ∧ t = { s with phase := .done }

/-- 60 R176 and 10 R28: no step leaves Failed, and none leaves Done, however many are taken. That the step answers the same state, rather than none, is
log 9. -/
def Obligations.FinishedMachineStays : Prop :=
  ∀ s : State, s.phase = .done ∨ s.phase = .failed → ∀ n, Host.Core.run core n s = .next s

/-- What a successful step does to `pc`, for the instruction the step acts as (41 R106; 47 R160): one further, but for a taken bracket, which goes one past the
bracket its search finds from the step's own `pc`. -/
def Obligations.PcAfterASuccessfulStep : Prop :=
  ∀ (s t : State) (i : Instr), s.phase = .run → s.actsAs = some i → step s = .next t → t.phase = .run →
    (i ≠ .beginLoop → i ≠ .endLoop → t.pc = s.pc + 1) ∧
    (i = .beginLoop → Tape.read s.mem s.ptr ≠ some 0#32 → t.pc = s.pc + 1) ∧
    (i = .beginLoop → Tape.read s.mem s.ptr = some 0#32 → ∃ k, IsForwardMatch s.prog s.pc k ∧ t.pc = k + 1) ∧
    (i = .endLoop → Tape.read s.mem s.ptr = some 0#32 → t.pc = s.pc + 1) ∧
    (i = .endLoop → Tape.read s.mem s.ptr ≠ some 0#32 → ∃ k, IsBackwardMatch s.prog s.pc k ∧ t.pc = k + 1)

/-! ### Pointer instructions -/

/-- 42 R110: DecrementPointer lowers `ptr` by 1 where it is above 0, and at 0 fails with Overflow; nothing else changes. -/
def Obligations.DecrementPointerMovesOrOverflows : Prop :=
  ∀ s : State,
    (0 < s.ptr → exec .decrementPointer s = .next { s with ptr := s.ptr - 1 }) ∧
    (s.ptr = 0 → exec .decrementPointer s = .next { s with phase := .failed, fail := some .overflow })

/-- 42 R111: IncrementPointer raises `ptr` by 1 where it is below 29999, and at 29999 fails with Overflow; nothing else changes. -/
def Obligations.IncrementPointerMovesOrOverflows : Prop :=
  ∀ s : State,
    (s.ptr < 29999 → exec .incrementPointer s = .next { s with ptr := s.ptr + 1 }) ∧
    (s.ptr = 29999 → exec .incrementPointer s = .next { s with phase := .failed, fail := some .overflow })

/-- 42 R112 over all instructions: a step moves `ptr` only where it acts as a pointer instruction, and then by exactly 1, inside the tape. -/
def Obligations.OnlyPointerInstructionsMoveThePointer : Prop :=
  ∀ s t : State, s.ptr < 30000 → step s = .next t → t.ptr ≠ s.ptr →
    s.phase = .run ∧ t.ptr < 30000 ∧
    ((s.actsAs = some .incrementPointer ∧ t.ptr = s.ptr + 1) ∨ (s.actsAs = some .decrementPointer ∧ t.ptr + 1 = s.ptr))

/-! ### Cell instructions -/

/-- 43 R116: IncrementByte adds 1 to the signed 32-bit cell, the maximum giving the minimum; no other cell and nothing else changes. -/
def Obligations.IncrementByteWrapsTheCell : Prop :=
  ∀ (s : State) (v : CellVal), Tape.wf s.mem = true → Tape.read s.mem s.ptr = some v →
    ∃ m w, exec .incrementByte s = .next { s with mem := m } ∧ Tape.wf m = true ∧
      Tape.read m s.ptr = some w ∧ w.toInt = (if v.toInt = 2147483647 then -2147483648 else v.toInt + 1) ∧
      ∀ a, a ≠ s.ptr → Tape.read m a = Tape.read s.mem a

/-- 43 R115: DecrementByte takes 1 from the signed 32-bit cell, the minimum giving the maximum; no other cell and nothing else changes. -/
def Obligations.DecrementByteWrapsTheCell : Prop :=
  ∀ (s : State) (v : CellVal), Tape.wf s.mem = true → Tape.read s.mem s.ptr = some v →
    ∃ m w, exec .decrementByte s = .next { s with mem := m } ∧ Tape.wf m = true ∧
      Tape.read m s.ptr = some w ∧ w.toInt = (if v.toInt = -2147483648 then 2147483647 else v.toInt - 1) ∧
      ∀ a, a ≠ s.ptr → Tape.read m a = Tape.read s.mem a

/-- 43 R117: SetZero makes the current cell 0 whatever it held; no other cell and nothing else changes, the Register included. -/
def Obligations.SetZeroClearsTheCell : Prop :=
  ∀ s : State, Tape.wf s.mem = true → s.ptr < 30000 →
    ∃ m, exec .setZero s = .next { s with mem := m } ∧ Tape.wf m = true ∧ Tape.read m s.ptr = some 0#32 ∧
      ∀ a, a ≠ s.ptr → Tape.read m a = Tape.read s.mem a

/-- 10 R21 and 20 R41 over all instructions: no step changes a cell other than the one at `ptr`. -/
def Obligations.OnlyTheCurrentCellChanges : Prop :=
  ∀ s t : State, step s = .next t → ∀ a, a ≠ s.ptr → Tape.read t.mem a = Tape.read s.mem a

/-! ### The Register -/

/-- 44 R120, R122: with the Register empty the whole 32-bit cell is copied into it and nothing else changes; with it holding `w`, the current cell becomes `w`
whatever it held, the Register becomes empty, and no other cell and nothing else changes. -/
def Obligations.CopyOrPasteMovesTheWholeCell : Prop :=
  (∀ (s : State) (v : CellVal), s.reg = none → Tape.read s.mem s.ptr = some v →
    exec .copyOrPaste s = .next { s with reg := some v }) ∧
  ∀ (s : State) (w : CellVal), s.reg = some w → Tape.wf s.mem = true → s.ptr < 30000 →
    ∃ m, exec .copyOrPaste s = .next { s with mem := m, reg := none } ∧ Tape.wf m = true ∧ Tape.read m s.ptr = some w ∧
      ∀ a, a ≠ s.ptr → Tape.read m a = Tape.read s.mem a

/-- 10 R24 and 44 R121 over all instructions: a step that acts as CopyOrPaste turns the Register's occupancy round, and every other step leaves the Register as
it is. -/
def Obligations.OnlyCopyOrPasteChangesTheRegister : Prop :=
  ∀ s t : State, step s = .next t →
    (s.phase = .run → s.actsAs = some .copyOrPaste → t.reg.isSome = !s.reg.isSome) ∧
    (s.phase ≠ .run ∨ s.actsAs ≠ some .copyOrPaste → t.reg = s.reg)

/-! ### Output -/

/-- 45 R127: WriteStdout appends the decimal text of the cell and changes nothing else. -/
def Obligations.WriteStdoutAppendsDecimalText : Prop :=
  ∀ (s : State) (v : CellVal), Tape.read s.mem s.ptr = some v →
    exec .writeStdout s = .next { s with out := s.out ++ decString v }

/-- 45 R128 (log 13): the decimal text of every cell value is a minus sign exactly for a negative value, then digits only, whose value in base 10 is the absolute
value, with no leading zero but the single digit 0; at most 11 bytes. -/
def Obligations.DecimalTextIsCanonical : Prop :=
  ∀ v : CellVal, ∃ ds : List Byte,
    decString v = (if v.toInt < 0 then [0x2D#8] else []) ++ ds ∧
    ds ≠ [] ∧ (∀ b ∈ ds, 0x30 ≤ b.toNat ∧ b.toNat ≤ 0x39) ∧
    ds.foldl (fun n b => 10 * n + (b.toNat - 0x30)) 0 = v.toInt.natAbs ∧
    (ds.head? = some 0x30#8 → ds = [0x30#8]) ∧ (decString v).length ≤ 11

/-- 45 R132, R134, the write path: a cell that is not 0 is written as one byte, its low 8 bits (log 16), which is the value itself for 1 to 255; nothing else
changes. -/
def Obligations.ReadOrWriteWritesTheLowByte : Prop :=
  ∀ (s : State) (v : CellVal), Tape.read s.mem s.ptr = some v → v.toInt ≠ 0 →
    ∃ b : Byte, exec .readOrWrite s = .next { s with out := s.out ++ [b] } ∧ (b.toNat : Int) = v.toInt % 256 ∧
      (1 ≤ v.toInt → v.toInt ≤ 255 → (b.toNat : Int) = v.toInt)

/-- 45 R126, R137 over all instructions: output is only ever appended to and input only ever advanced past, no step does both, and a step that acts as none of the
three I/O instructions does neither. -/
def Obligations.ChannelsOnlyGrowAndNeverBoth : Prop :=
  ∀ s t : State, step s = .next t →
    (∃ bytes, t.out = s.out ++ bytes) ∧ s.inPos ≤ t.inPos ∧ (t.out = s.out ∨ t.inPos = s.inPos) ∧
    (s.phase ≠ .run ∨ (s.actsAs ≠ some .writeStdout ∧ s.actsAs ≠ some .readStdin ∧ s.actsAs ≠ some .readOrWrite) →
      t.out = s.out ∧ t.inPos = s.inPos)

/-- 45 R126: nothing ever reads `out` back: a machine that has written other bytes before takes the same step. -/
def Obligations.OutputIsNeverReadBack : Prop :=
  ∀ (s : State) (o : List Byte),
    (∀ t, step s = .next t → step { s with out := o ++ s.out } = .next { t with out := o ++ t.out }) ∧
    (∀ r, step s = .fault r → step { s with out := o ++ s.out } = .fault r) ∧
    (∀ r, step s = .refused r → step { s with out := o ++ s.out } = .refused r)

/-! ### Input -/

/-- 45 R130 (log 14): a line is what stands before the first line feed, and the line feed, or all that is left where there is none; taking it advances `in_pos` past
all of it and changes nothing else. -/
def Obligations.LineEndsAtTheFirstLineFeed : Prop :=
  (∀ body rest : List Byte, (∀ b ∈ body, b ≠ 0x0A#8) →
    firstLine (body ++ 0x0A#8 :: rest) = body ++ [0x0A#8] ∧ firstLine body = body) ∧
  ∀ s : State, s.inPos < s.par.input.length →
    ∃ line, line = firstLine (s.par.input.drop s.inPos) ∧ takeLine s = .got line { s with inPos := s.inPos + line.length } ∧
      s.inPos < s.inPos + line.length ∧ s.inPos + line.length ≤ s.par.input.length

/-- 45 R131, P1 and P2, for both bindings of PARSE_LINE (log 5): the decimal text of every cell value, with or without a line feed, is parsed to that value, and a
line with no decimal digit is no integer. It holds for every value of `Config.parseLineOpen`. -/
def Obligations.ParseLineHasItsRequiredProperties : Prop :=
  ∀ binding : ParseBinding,
    (∀ v : CellVal, parseLine binding (decString v ++ [0x0A#8]) = some v ∧ parseLine binding (decString v) = some v) ∧
    ∀ line : List Byte, (∀ b ∈ line, ¬ (0x30 ≤ b.toNat ∧ b.toNat ≤ 0x39)) → parseLine binding line = none

/-- Every admitted PARSE_LINE is the model's for some choice of the free value (45 R131; log 5): a function with P1 and P2 agrees with the binding `anyAdmitted`
wherever it agrees with the free value. -/
def Obligations.AnyAdmittedBindingIsGeneral : Prop :=
  ∀ f : List Byte → Option CellVal,
    (∀ v : CellVal, f (decString v ++ [0x0A#8]) = some v ∧ f (decString v) = some v) →
    (∀ line : List Byte, (∀ b ∈ line, ¬ (0x30 ≤ b.toNat ∧ b.toNat ≤ 0x39)) → f line = none) →
    ∀ line, f line = Config.parseLineOpen line → f line = parseLine .anyAdmitted line

/-- 45 R129: ReadStdin takes the whole line and stores what it parses to, whatever the cell held; no other cell and nothing else but `in_pos` changes. -/
def Obligations.ReadStdinStoresTheParsedLine : Prop :=
  ∀ (s : State) (v : CellVal), Tape.wf s.mem = true → s.ptr < 30000 → s.inPos < s.par.input.length →
    parseLine s.par.parse (firstLine (s.par.input.drop s.inPos)) = some v →
    ∃ m, exec .readStdin s = .next { s with mem := m, inPos := s.inPos + (firstLine (s.par.input.drop s.inPos)).length } ∧
      Tape.wf m = true ∧ Tape.read m s.ptr = some v ∧ ∀ a, a ≠ s.ptr → Tape.read m a = Tape.read s.mem a

/-- 45 R129 (log 12): where the line does not parse, ReadStdin fails with NotInteger, the line staying consumed and nothing else changed. -/
def Obligations.ReadStdinRejectsAnUnparsableLine : Prop :=
  ∀ s : State, s.inPos < s.par.input.length → parseLine s.par.parse (firstLine (s.par.input.drop s.inPos)) = none →
    exec .readStdin s = .next { s with
      inPos := s.inPos + (firstLine (s.par.input.drop s.inPos)).length, phase := .failed, fail := some .notInteger }

/-- 45 R129 to R131 end to end, for both bindings of PARSE_LINE: where the input goes on with the decimal text of a cell value and a line feed, ReadStdin stores that
value and passes the line feed. -/
def Obligations.ReadStdinReadsBackDecimalText : Prop :=
  ∀ (s : State) (v : CellVal) (rest : List Byte), Tape.wf s.mem = true → s.ptr < 30000 →
    s.par.input.drop s.inPos = decString v ++ 0x0A#8 :: rest →
    ∃ m t, exec .readStdin s = .next t ∧ t = { s with mem := m, inPos := s.inPos + (decString v).length + 1 } ∧
      t.par.input.drop t.inPos = rest ∧ Tape.read m s.ptr = some v ∧ ∀ a, a ≠ s.ptr → Tape.read m a = Tape.read s.mem a

/-- 45 R132, R133, the read path: with the cell 0 and an ASCII byte next (log 15), the byte is consumed and its value, 0 to 127, stored; no other cell and nothing
else changes. -/
def Obligations.ReadOrWriteReadsAnAsciiByte : Prop :=
  ∀ (s : State) (b : Byte), Tape.wf s.mem = true → Tape.read s.mem s.ptr = some 0#32 →
    s.par.input[s.inPos]? = some b → b.toNat ≤ 0x7F →
    ∃ m w, exec .readOrWrite s = .next { s with mem := m, inPos := s.inPos + 1 } ∧ Tape.wf m = true ∧
      Tape.read m s.ptr = some w ∧ w.toInt = b.toNat ∧ ∀ a, a ≠ s.ptr → Tape.read m a = Tape.read s.mem a

/-- 45 R132, R133 (log 12, log 15): with the cell 0 and a byte above 0x7F next, ReadOrWrite fails with NotAscii, the byte staying consumed and nothing else changed. -/
def Obligations.ReadOrWriteRejectsANonAsciiByte : Prop :=
  ∀ (s : State) (b : Byte), Tape.read s.mem s.ptr = some 0#32 → s.par.input[s.inPos]? = some b → 0x7F < b.toNat →
    exec .readOrWrite s = .next { s with inPos := s.inPos + 1, phase := .failed, fail := some .notAscii }

/-- 45 R135, both policies under both of their bindings (log 6, log 7, log 8): a byte read at the end of the input is stuck or fails with NotAscii, a line read fails
with NotInteger or is stuck; nothing is consumed. -/
def Obligations.ReadsAtEndOfInputFollowThePolicies : Prop :=
  ∀ s : State, s.inPos = s.par.input.length →
    (Tape.read s.mem s.ptr = some 0#32 → s.par.eofByte = .stuck → exec .readOrWrite s = .fault .stuckOnByteRead) ∧
    (Tape.read s.mem s.ptr = some 0#32 → s.par.eofByte = .failNotAscii →
      exec .readOrWrite s = .next { s with phase := .failed, fail := some .notAscii }) ∧
    (s.par.eofLine = .emptyLine → exec .readStdin s = .next { s with phase := .failed, fail := some .notInteger }) ∧
    (s.par.eofLine = .stuck → exec .readStdin s = .fault .stuckOnLineRead)

/-! ### ExecuteValue -/

/-- 46 R141: a cell outside 0 to 11 fails with InvalidCode and ExecuteValue's own code with InfiniteLoop, in both cases with nothing else changed. -/
def Obligations.ExecuteValueChecksBeforeAnyEffect : Prop :=
  ∀ (s : State) (v : CellVal), Tape.read s.mem s.ptr = some v →
    (v.toInt < 0 ∨ 11 < v.toInt → exec .executeValue s = .next { s with phase := .failed, fail := some .invalidCode }) ∧
    (v.toInt = code .executeValue → exec .executeValue s = .next { s with phase := .failed, fail := some .infiniteLoop })

/-- 30 R71, whole: each token alone decodes to one instruction; that instruction's code as a cell, executed, is refused with InfiniteLoop for ExecuteValue's own
code, and for every other code does exactly what the instruction does on the same state; and the whole step of a program that holds ExecuteValue there is the step
of the program that holds the instruction in its place, the program itself apart, whether the step answers, faults or is refused. -/
def Obligations.ExecuteValueDispatchesTheNamedInstruction : Prop :=
  (∀ i, decodeProgram (encode i) = [i]) ∧
  ∀ (s : State) (v : CellVal) (i : Instr), Tape.read s.mem s.ptr = some v → v.toInt = code i →
    (i = .executeValue → exec .executeValue s = .next { s with phase := .failed, fail := some .infiniteLoop }) ∧
    (i ≠ .executeValue → exec .executeValue s = exec i s ∧
      (s.phase = .run → s.prog[s.pc]? = some .executeValue →
        (∀ t, step s = .next t → step { s with prog := s.prog.set s.pc i } = .next { t with prog := s.prog.set s.pc i }) ∧
        (∀ r, step s = .fault r → step { s with prog := s.prog.set s.pc i } = .fault r) ∧
        (∀ r, step s = .refused r → step { s with prog := s.prog.set s.pc i } = .refused r)))

/-- 46 R144 (log 2): what an ExecuteValue completes with for each code, given that the cell holds it. -/
def Obligations.ExecuteValueOutcomesByCode : Prop :=
  ∀ (s : State) (v : CellVal), Tape.wf s.mem = true → Tape.read s.mem s.ptr = some v →
    (v.toInt = 0 → exec .executeValue s = .next s) ∧
    (v.toInt = 1 → 0 < s.ptr → exec .executeValue s = .next { s with ptr := s.ptr - 1 }) ∧
    (v.toInt = 2 → s.ptr < 29999 → exec .executeValue s = .next { s with ptr := s.ptr + 1 }) ∧
    (v.toInt = 4 → exec .executeValue s = .next { s with out := s.out ++ [0x04#8] }) ∧
    (v.toInt = 5 ∨ v.toInt = 6 ∨ v.toInt = 8 →
      ∃ m, exec .executeValue s = .next { s with mem := m } ∧ Tape.wf m = true ∧
        Tape.read m s.ptr = some (if v.toInt = 5 then 4#32 else if v.toInt = 6 then 7#32 else 0#32) ∧
        ∀ a, a ≠ s.ptr → Tape.read m a = Tape.read s.mem a) ∧
    (v.toInt = 7 → exec .executeValue s = .next s) ∧
    (v.toInt = 9 → s.reg = none → exec .executeValue s = .next { s with reg := some 9#32 }) ∧
    (v.toInt = 9 → ∀ w, s.reg = some w →
      ∃ m, exec .executeValue s = .next { s with mem := m, reg := none } ∧ Tape.wf m = true ∧ Tape.read m s.ptr = some w ∧
        ∀ a, a ≠ s.ptr → Tape.read m a = Tape.read s.mem a) ∧
    (v.toInt = 10 → exec .executeValue s = .next { s with out := s.out ++ [0x31#8, 0x30#8] }) ∧
    (v.toInt = 11 → ∀ w, s.inPos < s.par.input.length →
      parseLine s.par.parse (firstLine (s.par.input.drop s.inPos)) = some w →
      ∃ m, exec .executeValue s =
          .next { s with mem := m, inPos := s.inPos + (firstLine (s.par.input.drop s.inPos)).length } ∧
        Tape.wf m = true ∧ Tape.read m s.ptr = some w ∧ ∀ a, a ≠ s.ptr → Tape.read m a = Tape.read s.mem a)

/-! ### Loops -/

/-- 47 R150: BeginLoop does nothing where the cell is not 0; where it is 0 it sets `pc` to the forward match of its own `pc`, or, where there is none, fails with
UnmatchedEndLoop; nothing else changes. -/
def Obligations.BeginLoopJumpsToItsForwardMatch : Prop :=
  ∀ (s : State) (v : CellVal), Tape.read s.mem s.ptr = some v →
    (v.toInt ≠ 0 → exec .beginLoop s = .next s) ∧
    (v.toInt = 0 → ∀ k, IsForwardMatch s.prog s.pc k → exec .beginLoop s = .next { s with pc := k }) ∧
    (v.toInt = 0 → (¬ ∃ k, IsForwardMatch s.prog s.pc k) →
      exec .beginLoop s = .next { s with phase := .failed, fail := some .unmatchedEndLoop })

/-- 47 R151: EndLoop does nothing where the cell is 0; where it is not 0, a negative cell included, it sets `pc` to the backward match of its own `pc`, or, where there
is none, fails with UnmatchedBeginLoop; nothing else changes. -/
def Obligations.EndLoopJumpsToItsBackwardMatch : Prop :=
  ∀ (s : State) (v : CellVal), Tape.read s.mem s.ptr = some v →
    (v.toInt = 0 → exec .endLoop s = .next s) ∧
    (v.toInt ≠ 0 → ∀ k, IsBackwardMatch s.prog s.pc k → exec .endLoop s = .next { s with pc := k }) ∧
    (v.toInt ≠ 0 → (¬ ∃ k, IsBackwardMatch s.prog s.pc k) →
      exec .endLoop s = .next { s with phase := .failed, fail := some .unmatchedBeginLoop })

/-- 47 R152: the forward search finds exactly the first index from origin + 2 on at which the counter, started at 1, reaches 0; an EndLoop stands there. -/
def Obligations.ForwardSearchFindsTheFirstZero : Prop :=
  ∀ (p : List Instr) (o : Nat),
    (∀ k, findFwd p o = some k ↔ IsForwardMatch p o k) ∧ (∀ k, findFwd p o = some k → p[k]? = some .endLoop)

/-- 47 R153: the backward search finds exactly the last index down from origin - 2 at which the counter, started at 1, reaches 0; a BeginLoop stands there. -/
def Obligations.BackwardSearchFindsTheLastZero : Prop :=
  ∀ (p : List Instr) (o : Nat),
    (∀ k, findBwd p o = some k ↔ IsBackwardMatch p o k) ∧ (∀ k, findBwd p o = some k → p[k]? = some .beginLoop)

/-- 47 R154: the instruction next to the origin is never looked at: whatever stands there, the search gives the same, and never that index. -/
def Obligations.SearchSkipsTheNeighbour : Prop :=
  ∀ (p : List Instr) (o : Nat) (x : Instr),
    findFwd (p.set (o + 1) x) o = findFwd p o ∧ findFwd p o ≠ some (o + 1) ∧
    (1 ≤ o → findBwd (p.set (o - 1) x) o = findBwd p o ∧ findBwd p o ≠ some (o - 1))

/-- 47 R155: a step that jumps ends one past the matched bracket, whose own test is not made: the next instruction is the one after it. -/
def Obligations.JumpPassesTheMatchedBracket : Prop :=
  ∀ (s : State) (v : CellVal) (k : Nat), s.phase = .run → Tape.read s.mem s.ptr = some v →
    (s.prog[s.pc]? = some .beginLoop → v.toInt = 0 → findFwd s.prog s.pc = some k → step s = .next { s with pc := k + 1 }) ∧
    (s.prog[s.pc]? = some .endLoop → v.toInt ≠ 0 → findBwd s.prog s.pc = some k → step s = .next { s with pc := k + 1 })

/-! ### Failures -/

/-- 41 R100 and 60 R175 (log 12): a failing step sets `phase` and `fail`, leaves every other element but `in_pos`, `pc` among them, as before the step, never moves `in_pos`
back, and is the last: however many more steps are taken, the state stays. -/
def Obligations.FailureIsPreciseAndFinal : Prop :=
  ∀ s t : State, s.phase = .run → step s = .next t → t.phase = .failed →
    (∃ k n, t = { s with phase := .failed, fail := some k, inPos := n } ∧ s.inPos ≤ n ∧
      (n ≠ s.inPos → k = .notAscii ∨ k = .notInteger)) ∧
    ∀ n, Host.Core.run core n t = .next t

/-- 60 R166: an instruction raises a failure kind exactly where the table of causes says so. The causes at the end of the input follow the policies (log 6, log 7). -/
def Obligations.FailureCausesAreExactlyTheTable : Prop :=
  ∀ (s : State) (i : Instr) (k : Failure), s.Inv → s.phase = .run →
    ((∃ t, exec i s = .next t ∧ t.phase = .failed ∧ t.fail = some k) ↔ failureCause s i k)

/-- 60 R166 (log 27): the numbers of the status interface. -/
def Obligations.StatusNumbersTheFailures : Prop :=
  ∀ s : State,
    (s.fail = none → s.status = (s.phase, 0)) ∧ (s.fail = some .overflow → s.status = (s.phase, 1)) ∧
    (s.fail = some .invalidCode → s.status = (s.phase, 2)) ∧ (s.fail = some .infiniteLoop → s.status = (s.phase, 3)) ∧
    (s.fail = some .notAscii → s.status = (s.phase, 4)) ∧ (s.fail = some .notInteger → s.status = (s.phase, 5)) ∧
    (s.fail = some .unmatchedBeginLoop → s.status = (s.phase, 6)) ∧ (s.fail = some .unmatchedEndLoop → s.status = (s.phase, 7))

/-! ### The whole machine -/

/-- 10 R31 (log 26): after reset, whatever the parameters of the run, every element has its value: every cell reads 0. -/
def Obligations.ResetGivesEveryElementItsValue : Prop :=
  ∀ par : Params,
    (∀ a, a < 30000 → Tape.read (State.resetWith par).mem a = some 0#32) ∧
    (State.resetWith par).ptr = 0 ∧ (State.resetWith par).pc = 0 ∧ (State.resetWith par).reg = none ∧
    (State.resetWith par).prog = [] ∧ (State.resetWith par).cur = 0 ∧ (State.resetWith par).inPos = 0 ∧
    (State.resetWith par).out = [] ∧ (State.resetWith par).phase = .decode ∧ (State.resetWith par).fail = none ∧
    State.reset.phase = .decode

/-- The invariants hold after reset, whatever the parameters of the run. -/
def Obligations.ResetMeetsTheInvariants : Prop :=
  ∀ par : Params, (State.resetWith par).Inv ∧ (State.resetWith par).Decoded

/-- Every step keeps the machine's invariant, from every state that has it (41 R105; 42 R112; 10 R20, R28). -/
def Obligations.EveryStepKeepsTheInvariant : Prop :=
  ∀ s t : State, s.Inv → step s = .next t → t.Inv

/-- Every step keeps what the decoder has established, from every state that has it (40 R82, R87, R90; 10 R25). -/
def Obligations.EveryStepKeepsTheDecode : Prop :=
  ∀ s t : State, s.Decoded → step s = .next t → t.Decoded

/-- 10 R25, R26 and 20 R50 over all instructions: no step writes the parameters of the run, and once the phase is not Decode none writes the program or the cursor. -/
def Obligations.ProgramIsReadOnlyAfterTheDecode : Prop :=
  ∀ s t : State, step s = .next t →
    t.par = s.par ∧ (s.phase ≠ .decode → t.prog = s.prog ∧ t.cur = s.cur ∧ t.phase ≠ .decode)

/-- 10 R26: after the decode neither the cursor nor the source buffer is read: a machine that differs in them alone takes the same step. -/
def Obligations.SourceIsDeadAfterTheDecode : Prop :=
  ∀ (s : State) (c : Nat) (x : List Byte), s.phase ≠ .decode →
    (∀ t, step s = .next t →
      step { s with cur := c, par := { s.par with src := x } } = .next { t with cur := c, par := { t.par with src := x } }) ∧
    (∀ r, step s = .fault r → step { s with cur := c, par := { s.par with src := x } } = .fault r) ∧
    (∀ r, step s = .refused r → step { s with cur := c, par := { s.par with src := x } } = .refused r)

/-- A step is always enabled but at the end of the input (41 R101, R102; 45 R135; 20 R46): from a state with the invariant, a step answers a next state, or the machine is
stuck on a byte or a line read with the whole input consumed and the `stuck` binding (log 6 to 8; that Done and Failed answer is log 9). No step is refused, and no access or fetch goes outside. -/
def Obligations.StepIsEnabledUnlessInputIsExhausted : Prop :=
  ∀ s : State, s.Inv →
    (∃ t, step s = .next t) ∨
    (step s = .fault .stuckOnByteRead ∧ s.phase = .run ∧ s.actsAs = some .readOrWrite ∧ s.inPos = s.par.input.length ∧
      s.par.eofByte = .stuck ∧ Tape.read s.mem s.ptr = some 0#32) ∨
    (step s = .fault .stuckOnLineRead ∧ s.phase = .run ∧ s.actsAs = some .readStdin ∧ s.inPos = s.par.input.length ∧
      s.par.eofLine = .stuck)

/-- PROG_MAX never binds (00 R5; 10 R23; D5; log 19): with an admitted PROG_MAX the program fits its store before and after every step, from every state in which
the decoder has done its work so far; and no smaller capacity would do, for some source of every length has a decode of floor(SRC_LEN/3) instructions. -/
def Obligations.ProgramFitsItsStore : Prop :=
  (∀ s : State, s.Decoded → s.par.admitted = true →
    s.prog.length ≤ s.par.progMax ∧ ∀ t, step s = .next t → t.prog.length ≤ t.par.progMax) ∧
  ∀ n : Nat, ∃ src : List Byte, src.length = n ∧ (decodeProgram src).length = n / 3
end

