-- ==== Sys2Proof/Laws/Decode.lean ====
section
/-! SUPPORT. The equations of the token decoder and of the whole decode (spec/40_decoder.md R82), by what the head triple names. -/

namespace Sys2Proof

theorem decode_of_token {b0 b1 b2 : Byte} {i : Instr} (rest : List Byte) (h : instrOfToken b0 b1 b2 = some i) :
    decode (b0 :: b1 :: b2 :: rest) = .ok (i, rest) := by
  simp [decode, h]

theorem decode_of_no_token {b0 b1 b2 : Byte} (rest : List Byte) (h : instrOfToken b0 b1 b2 = none) :
    decode (b0 :: b1 :: b2 :: rest) = .error .notAToken := by
  simp [decode, h]

theorem decode_of_short {l : List Byte} (h : l.length < 3) : decode l = .error .tooShort := by
  match l, h with
  | [], _ => rfl
  | [_], _ => rfl
  | [_, _], _ => rfl
  | _ :: _ :: _ :: _, h => simp at h; omega

/-- Everything the token decoder can answer. -/
theorem decode_cases (l : List Byte) :
    (l.length < 3 ∧ decode l = .error .tooShort) ∨
    (∃ b0 b1 b2 rest, l = b0 :: b1 :: b2 :: rest ∧
      ((instrOfToken b0 b1 b2 = none ∧ decode l = .error .notAToken) ∨
       ∃ i, instrOfToken b0 b1 b2 = some i ∧ decode l = .ok (i, rest))) := by
  match l with
  | [] => exact .inl ⟨by simp, rfl⟩
  | [_] => exact .inl ⟨by simp, rfl⟩
  | [_, _] => exact .inl ⟨by simp, rfl⟩
  | b0 :: b1 :: b2 :: rest =>
    refine .inr ⟨b0, b1, b2, rest, rfl, ?_⟩
    cases h : instrOfToken b0 b1 b2 with
    | none => exact .inl ⟨rfl, decode_of_no_token rest h⟩
    | some i => exact .inr ⟨i, rfl, decode_of_token rest h⟩

theorem decodeProgram_of_token {b0 b1 b2 : Byte} {i : Instr} (rest : List Byte) (h : instrOfToken b0 b1 b2 = some i) :
    decodeProgram (b0 :: b1 :: b2 :: rest) = i :: decodeProgram rest := by
  rw [decodeProgram, h]

theorem decodeProgram_of_no_token {b0 b1 b2 : Byte} (rest : List Byte) (h : instrOfToken b0 b1 b2 = none) :
    decodeProgram (b0 :: b1 :: b2 :: rest) = decodeProgram (b1 :: b2 :: rest) := by
  rw [decodeProgram, h]

theorem decodeProgram_of_short {l : List Byte} (h : l.length < 3) : decodeProgram l = [] := by
  match l, h with
  | [], _ => rfl
  | [_], _ => rfl
  | [_, _], _ => rfl
  | _ :: _ :: _ :: _, h => simp at h; omega

end Sys2Proof
end

