-- ==== Sys2Proof/Laws/State.lean ====
section
/-! SUPPORT. Every element after every update of the state: one lemma per element per update, true by rfl
(spec/10_state.md R30: a write to one element changes no other). -/

namespace Sys2Proof.Machine

/-! ### setMem -/

@[simp] theorem State.setMem_mem (s : State) (m : Tape) : (s.setMem m).mem = m := rfl
@[simp] theorem State.setMem_ptr (s : State) (m : Tape) : (s.setMem m).ptr = s.ptr := rfl
@[simp] theorem State.setMem_pc (s : State) (m : Tape) : (s.setMem m).pc = s.pc := rfl
@[simp] theorem State.setMem_reg (s : State) (m : Tape) : (s.setMem m).reg = s.reg := rfl
@[simp] theorem State.setMem_prog (s : State) (m : Tape) : (s.setMem m).prog = s.prog := rfl
@[simp] theorem State.setMem_cur (s : State) (m : Tape) : (s.setMem m).cur = s.cur := rfl
@[simp] theorem State.setMem_inPos (s : State) (m : Tape) : (s.setMem m).inPos = s.inPos := rfl
@[simp] theorem State.setMem_out (s : State) (m : Tape) : (s.setMem m).out = s.out := rfl
@[simp] theorem State.setMem_phase (s : State) (m : Tape) : (s.setMem m).phase = s.phase := rfl
@[simp] theorem State.setMem_fail (s : State) (m : Tape) : (s.setMem m).fail = s.fail := rfl
@[simp] theorem State.setMem_par (s : State) (m : Tape) : (s.setMem m).par = s.par := rfl

/-! ### setPtr -/

@[simp] theorem State.setPtr_mem (s : State) (p : Nat) : (s.setPtr p).mem = s.mem := rfl
@[simp] theorem State.setPtr_ptr (s : State) (p : Nat) : (s.setPtr p).ptr = p := rfl
@[simp] theorem State.setPtr_pc (s : State) (p : Nat) : (s.setPtr p).pc = s.pc := rfl
@[simp] theorem State.setPtr_reg (s : State) (p : Nat) : (s.setPtr p).reg = s.reg := rfl
@[simp] theorem State.setPtr_prog (s : State) (p : Nat) : (s.setPtr p).prog = s.prog := rfl
@[simp] theorem State.setPtr_cur (s : State) (p : Nat) : (s.setPtr p).cur = s.cur := rfl
@[simp] theorem State.setPtr_inPos (s : State) (p : Nat) : (s.setPtr p).inPos = s.inPos := rfl
@[simp] theorem State.setPtr_out (s : State) (p : Nat) : (s.setPtr p).out = s.out := rfl
@[simp] theorem State.setPtr_phase (s : State) (p : Nat) : (s.setPtr p).phase = s.phase := rfl
@[simp] theorem State.setPtr_fail (s : State) (p : Nat) : (s.setPtr p).fail = s.fail := rfl
@[simp] theorem State.setPtr_par (s : State) (p : Nat) : (s.setPtr p).par = s.par := rfl

/-! ### setPc -/

@[simp] theorem State.setPc_mem (s : State) (n : Nat) : (s.setPc n).mem = s.mem := rfl
@[simp] theorem State.setPc_ptr (s : State) (n : Nat) : (s.setPc n).ptr = s.ptr := rfl
@[simp] theorem State.setPc_pc (s : State) (n : Nat) : (s.setPc n).pc = n := rfl
@[simp] theorem State.setPc_reg (s : State) (n : Nat) : (s.setPc n).reg = s.reg := rfl
@[simp] theorem State.setPc_prog (s : State) (n : Nat) : (s.setPc n).prog = s.prog := rfl
@[simp] theorem State.setPc_cur (s : State) (n : Nat) : (s.setPc n).cur = s.cur := rfl
@[simp] theorem State.setPc_inPos (s : State) (n : Nat) : (s.setPc n).inPos = s.inPos := rfl
@[simp] theorem State.setPc_out (s : State) (n : Nat) : (s.setPc n).out = s.out := rfl
@[simp] theorem State.setPc_phase (s : State) (n : Nat) : (s.setPc n).phase = s.phase := rfl
@[simp] theorem State.setPc_fail (s : State) (n : Nat) : (s.setPc n).fail = s.fail := rfl
@[simp] theorem State.setPc_par (s : State) (n : Nat) : (s.setPc n).par = s.par := rfl

/-! ### setReg -/

@[simp] theorem State.setReg_mem (s : State) (r : Option CellVal) : (s.setReg r).mem = s.mem := rfl
@[simp] theorem State.setReg_ptr (s : State) (r : Option CellVal) : (s.setReg r).ptr = s.ptr := rfl
@[simp] theorem State.setReg_pc (s : State) (r : Option CellVal) : (s.setReg r).pc = s.pc := rfl
@[simp] theorem State.setReg_reg (s : State) (r : Option CellVal) : (s.setReg r).reg = r := rfl
@[simp] theorem State.setReg_prog (s : State) (r : Option CellVal) : (s.setReg r).prog = s.prog := rfl
@[simp] theorem State.setReg_cur (s : State) (r : Option CellVal) : (s.setReg r).cur = s.cur := rfl
@[simp] theorem State.setReg_inPos (s : State) (r : Option CellVal) : (s.setReg r).inPos = s.inPos := rfl
@[simp] theorem State.setReg_out (s : State) (r : Option CellVal) : (s.setReg r).out = s.out := rfl
@[simp] theorem State.setReg_phase (s : State) (r : Option CellVal) : (s.setReg r).phase = s.phase := rfl
@[simp] theorem State.setReg_fail (s : State) (r : Option CellVal) : (s.setReg r).fail = s.fail := rfl
@[simp] theorem State.setReg_par (s : State) (r : Option CellVal) : (s.setReg r).par = s.par := rfl

/-! ### setCur -/

@[simp] theorem State.setCur_mem (s : State) (n : Nat) : (s.setCur n).mem = s.mem := rfl
@[simp] theorem State.setCur_ptr (s : State) (n : Nat) : (s.setCur n).ptr = s.ptr := rfl
@[simp] theorem State.setCur_pc (s : State) (n : Nat) : (s.setCur n).pc = s.pc := rfl
@[simp] theorem State.setCur_reg (s : State) (n : Nat) : (s.setCur n).reg = s.reg := rfl
@[simp] theorem State.setCur_prog (s : State) (n : Nat) : (s.setCur n).prog = s.prog := rfl
@[simp] theorem State.setCur_cur (s : State) (n : Nat) : (s.setCur n).cur = n := rfl
@[simp] theorem State.setCur_inPos (s : State) (n : Nat) : (s.setCur n).inPos = s.inPos := rfl
@[simp] theorem State.setCur_out (s : State) (n : Nat) : (s.setCur n).out = s.out := rfl
@[simp] theorem State.setCur_phase (s : State) (n : Nat) : (s.setCur n).phase = s.phase := rfl
@[simp] theorem State.setCur_fail (s : State) (n : Nat) : (s.setCur n).fail = s.fail := rfl
@[simp] theorem State.setCur_par (s : State) (n : Nat) : (s.setCur n).par = s.par := rfl

/-! ### setInPos -/

@[simp] theorem State.setInPos_mem (s : State) (n : Nat) : (s.setInPos n).mem = s.mem := rfl
@[simp] theorem State.setInPos_ptr (s : State) (n : Nat) : (s.setInPos n).ptr = s.ptr := rfl
@[simp] theorem State.setInPos_pc (s : State) (n : Nat) : (s.setInPos n).pc = s.pc := rfl
@[simp] theorem State.setInPos_reg (s : State) (n : Nat) : (s.setInPos n).reg = s.reg := rfl
@[simp] theorem State.setInPos_prog (s : State) (n : Nat) : (s.setInPos n).prog = s.prog := rfl
@[simp] theorem State.setInPos_cur (s : State) (n : Nat) : (s.setInPos n).cur = s.cur := rfl
@[simp] theorem State.setInPos_inPos (s : State) (n : Nat) : (s.setInPos n).inPos = n := rfl
@[simp] theorem State.setInPos_out (s : State) (n : Nat) : (s.setInPos n).out = s.out := rfl
@[simp] theorem State.setInPos_phase (s : State) (n : Nat) : (s.setInPos n).phase = s.phase := rfl
@[simp] theorem State.setInPos_fail (s : State) (n : Nat) : (s.setInPos n).fail = s.fail := rfl
@[simp] theorem State.setInPos_par (s : State) (n : Nat) : (s.setInPos n).par = s.par := rfl

/-! ### setPhase -/

@[simp] theorem State.setPhase_mem (s : State) (p : Phase) : (s.setPhase p).mem = s.mem := rfl
@[simp] theorem State.setPhase_ptr (s : State) (p : Phase) : (s.setPhase p).ptr = s.ptr := rfl
@[simp] theorem State.setPhase_pc (s : State) (p : Phase) : (s.setPhase p).pc = s.pc := rfl
@[simp] theorem State.setPhase_reg (s : State) (p : Phase) : (s.setPhase p).reg = s.reg := rfl
@[simp] theorem State.setPhase_prog (s : State) (p : Phase) : (s.setPhase p).prog = s.prog := rfl
@[simp] theorem State.setPhase_cur (s : State) (p : Phase) : (s.setPhase p).cur = s.cur := rfl
@[simp] theorem State.setPhase_inPos (s : State) (p : Phase) : (s.setPhase p).inPos = s.inPos := rfl
@[simp] theorem State.setPhase_out (s : State) (p : Phase) : (s.setPhase p).out = s.out := rfl
@[simp] theorem State.setPhase_phase (s : State) (p : Phase) : (s.setPhase p).phase = p := rfl
@[simp] theorem State.setPhase_fail (s : State) (p : Phase) : (s.setPhase p).fail = s.fail := rfl
@[simp] theorem State.setPhase_par (s : State) (p : Phase) : (s.setPhase p).par = s.par := rfl

/-! ### pushInstr -/

@[simp] theorem State.pushInstr_mem (s : State) (i : Instr) : (s.pushInstr i).mem = s.mem := rfl
@[simp] theorem State.pushInstr_ptr (s : State) (i : Instr) : (s.pushInstr i).ptr = s.ptr := rfl
@[simp] theorem State.pushInstr_pc (s : State) (i : Instr) : (s.pushInstr i).pc = s.pc := rfl
@[simp] theorem State.pushInstr_reg (s : State) (i : Instr) : (s.pushInstr i).reg = s.reg := rfl
@[simp] theorem State.pushInstr_prog (s : State) (i : Instr) : (s.pushInstr i).prog = s.prog ++ [i] := rfl
@[simp] theorem State.pushInstr_cur (s : State) (i : Instr) : (s.pushInstr i).cur = s.cur := rfl
@[simp] theorem State.pushInstr_inPos (s : State) (i : Instr) : (s.pushInstr i).inPos = s.inPos := rfl
@[simp] theorem State.pushInstr_out (s : State) (i : Instr) : (s.pushInstr i).out = s.out := rfl
@[simp] theorem State.pushInstr_phase (s : State) (i : Instr) : (s.pushInstr i).phase = s.phase := rfl
@[simp] theorem State.pushInstr_fail (s : State) (i : Instr) : (s.pushInstr i).fail = s.fail := rfl
@[simp] theorem State.pushInstr_par (s : State) (i : Instr) : (s.pushInstr i).par = s.par := rfl

/-! ### output -/

@[simp] theorem State.output_mem (s : State) (bs : List Byte) : (s.output bs).mem = s.mem := rfl
@[simp] theorem State.output_ptr (s : State) (bs : List Byte) : (s.output bs).ptr = s.ptr := rfl
@[simp] theorem State.output_pc (s : State) (bs : List Byte) : (s.output bs).pc = s.pc := rfl
@[simp] theorem State.output_reg (s : State) (bs : List Byte) : (s.output bs).reg = s.reg := rfl
@[simp] theorem State.output_prog (s : State) (bs : List Byte) : (s.output bs).prog = s.prog := rfl
@[simp] theorem State.output_cur (s : State) (bs : List Byte) : (s.output bs).cur = s.cur := rfl
@[simp] theorem State.output_inPos (s : State) (bs : List Byte) : (s.output bs).inPos = s.inPos := rfl
@[simp] theorem State.output_out (s : State) (bs : List Byte) : (s.output bs).out = s.out ++ bs := rfl
@[simp] theorem State.output_phase (s : State) (bs : List Byte) : (s.output bs).phase = s.phase := rfl
@[simp] theorem State.output_fail (s : State) (bs : List Byte) : (s.output bs).fail = s.fail := rfl
@[simp] theorem State.output_par (s : State) (bs : List Byte) : (s.output bs).par = s.par := rfl

/-! ### takeFailure -/

@[simp] theorem State.takeFailure_mem (s : State) (k : Failure) : (s.takeFailure k).mem = s.mem := rfl
@[simp] theorem State.takeFailure_ptr (s : State) (k : Failure) : (s.takeFailure k).ptr = s.ptr := rfl
@[simp] theorem State.takeFailure_pc (s : State) (k : Failure) : (s.takeFailure k).pc = s.pc := rfl
@[simp] theorem State.takeFailure_reg (s : State) (k : Failure) : (s.takeFailure k).reg = s.reg := rfl
@[simp] theorem State.takeFailure_prog (s : State) (k : Failure) : (s.takeFailure k).prog = s.prog := rfl
@[simp] theorem State.takeFailure_cur (s : State) (k : Failure) : (s.takeFailure k).cur = s.cur := rfl
@[simp] theorem State.takeFailure_inPos (s : State) (k : Failure) : (s.takeFailure k).inPos = s.inPos := rfl
@[simp] theorem State.takeFailure_out (s : State) (k : Failure) : (s.takeFailure k).out = s.out := rfl
@[simp] theorem State.takeFailure_phase (s : State) (k : Failure) : (s.takeFailure k).phase = .failed := rfl
@[simp] theorem State.takeFailure_fail (s : State) (k : Failure) : (s.takeFailure k).fail = some k := rfl
@[simp] theorem State.takeFailure_par (s : State) (k : Failure) : (s.takeFailure k).par = s.par := rfl

/-! ### Reset (10 R31) -/

@[simp] theorem State.resetWith_mem (par : Params) : (State.resetWith par).mem = [] := rfl
@[simp] theorem State.resetWith_ptr (par : Params) : (State.resetWith par).ptr = 0 := rfl
@[simp] theorem State.resetWith_pc (par : Params) : (State.resetWith par).pc = 0 := rfl
@[simp] theorem State.resetWith_reg (par : Params) : (State.resetWith par).reg = none := rfl
@[simp] theorem State.resetWith_prog (par : Params) : (State.resetWith par).prog = [] := rfl
@[simp] theorem State.resetWith_cur (par : Params) : (State.resetWith par).cur = 0 := rfl
@[simp] theorem State.resetWith_inPos (par : Params) : (State.resetWith par).inPos = 0 := rfl
@[simp] theorem State.resetWith_out (par : Params) : (State.resetWith par).out = [] := rfl
@[simp] theorem State.resetWith_phase (par : Params) : (State.resetWith par).phase = .decode := rfl
@[simp] theorem State.resetWith_fail (par : Params) : (State.resetWith par).fail = none := rfl
@[simp] theorem State.resetWith_par (par : Params) : (State.resetWith par).par = par := rfl

/-! ### The post-increment (41 R99, R100): after a failure nothing moves; else only `pc` does -/

theorem State.postIncrement_of_failed {s : State} (h : s.phase = .failed) : s.postIncrement = s := by
  simp [State.postIncrement, h]

theorem State.postIncrement_of_not_failed {s : State} (h : s.phase ≠ .failed) : s.postIncrement = s.setPc (s.pc + 1) := by
  simp [State.postIncrement, h]

@[simp] theorem State.postIncrement_mem (s : State) : s.postIncrement.mem = s.mem := by
  unfold State.postIncrement; split <;> rfl
@[simp] theorem State.postIncrement_ptr (s : State) : s.postIncrement.ptr = s.ptr := by
  unfold State.postIncrement; split <;> rfl
@[simp] theorem State.postIncrement_reg (s : State) : s.postIncrement.reg = s.reg := by
  unfold State.postIncrement; split <;> rfl
@[simp] theorem State.postIncrement_prog (s : State) : s.postIncrement.prog = s.prog := by
  unfold State.postIncrement; split <;> rfl
@[simp] theorem State.postIncrement_cur (s : State) : s.postIncrement.cur = s.cur := by
  unfold State.postIncrement; split <;> rfl
@[simp] theorem State.postIncrement_inPos (s : State) : s.postIncrement.inPos = s.inPos := by
  unfold State.postIncrement; split <;> rfl
@[simp] theorem State.postIncrement_out (s : State) : s.postIncrement.out = s.out := by
  unfold State.postIncrement; split <;> rfl
@[simp] theorem State.postIncrement_phase (s : State) : s.postIncrement.phase = s.phase := by
  unfold State.postIncrement; split <;> rfl
@[simp] theorem State.postIncrement_fail (s : State) : s.postIncrement.fail = s.fail := by
  unfold State.postIncrement; split <;> rfl
@[simp] theorem State.postIncrement_par (s : State) : s.postIncrement.par = s.par := by
  unfold State.postIncrement; split <;> rfl

end Sys2Proof.Machine
end

