-- ==== Sys2Proof/Laws/Tape.lean ====
section
/-! SUPPORT. The laws of the tape (spec/20_memory.md R41): a read after a write, other cells left alone, and every operation keeps the canonical form. -/

namespace Sys2Proof.Machine

/-- A cell below every listed index is not listed. -/
theorem Tape.get_of_lt {low a : Nat} {m : Tape} (h : Tape.wfFrom low m = true) (ha : a < low) : Tape.get m a = 0#32 := by
  induction m generalizing low with
  | nil => rfl
  | cons x rest ih =>
    obtain ⟨k, w⟩ := x
    simp only [Tape.wfFrom, Bool.and_eq_true, decide_eq_true_eq] at h
    obtain ⟨⟨⟨hk, -⟩, -⟩, hr⟩ := h
    simp only [Tape.get]
    rw [if_neg (by omega)]
    exact ih hr (by omega)

/-- A lower bound on the listed indices may be lowered. -/
theorem Tape.wfFrom_mono {low low' : Nat} {m : Tape} (h : Tape.wfFrom low m = true) (hl : low' ≤ low) :
    Tape.wfFrom low' m = true := by
  cases m with
  | nil => rfl
  | cons x rest =>
    obtain ⟨k, w⟩ := x
    simp only [Tape.wfFrom, Bool.and_eq_true, decide_eq_true_eq] at h ⊢
    obtain ⟨⟨⟨hk, h1⟩, h2⟩, hr⟩ := h
    exact ⟨⟨⟨by omega, h1⟩, h2⟩, hr⟩

/-- Setting a cell keeps the canonical form. -/
theorem Tape.wfFrom_put {low a : Nat} {m : Tape} (v : CellVal) (h : Tape.wfFrom low m = true) (hl : low ≤ a) (ha : a < tapeLen) :
    Tape.wfFrom low (Tape.put m a v) = true := by
  induction m generalizing low with
  | nil =>
    by_cases hv : v = 0#32 <;> simp [Tape.put, Tape.wfFrom, hv, hl, ha]
  | cons x rest ih =>
    obtain ⟨k, w⟩ := x
    simp only [Tape.wfFrom, Bool.and_eq_true, decide_eq_true_eq] at h
    obtain ⟨⟨⟨hk, hkt⟩, hw⟩, hr⟩ := h
    unfold Tape.put
    split
    · rename_i hlt
      simp only [Tape.wfFrom, Bool.and_eq_true, decide_eq_true_eq]
      exact ⟨⟨⟨hk, hkt⟩, hw⟩, ih hr (by omega)⟩
    · split
      · rename_i heq
        subst heq
        by_cases hv : v = 0#32
        · simpa [hv] using Tape.wfFrom_mono hr (by omega)
        · simp [hv, Tape.wfFrom, hl, ha, hr]
      · by_cases hv : v = 0#32
        · simp [hv, Tape.wfFrom, hk, hkt, hw, hr]
        · simp [hv, Tape.wfFrom, hl, ha, hkt, hw, hr]
          omega

/-- The cell set reads as it was set. -/
theorem Tape.get_put_same {low a : Nat} {m : Tape} (v : CellVal) (h : Tape.wfFrom low m = true) :
    Tape.get (Tape.put m a v) a = v := by
  induction m generalizing low with
  | nil => by_cases hv : v = 0#32 <;> simp [Tape.put, Tape.get, hv]
  | cons x rest ih =>
    obtain ⟨k, w⟩ := x
    simp only [Tape.wfFrom, Bool.and_eq_true, decide_eq_true_eq] at h
    obtain ⟨-, hr⟩ := h
    unfold Tape.put
    split
    · rename_i hlt
      simp only [Tape.get]
      rw [if_neg (by omega)]
      exact ih hr
    · split
      · rename_i heq
        subst heq
        by_cases hv : v = 0#32
        · simpa [hv] using Tape.get_of_lt hr (by omega)
        · simp [hv, Tape.get]
      · by_cases hv : v = 0#32
        · simp only [hv, if_true, Tape.get]
          rw [if_neg (by omega)]
          exact Tape.get_of_lt hr (by omega)
        · simp [hv, Tape.get]

/-- Every other cell reads as before; no canonical form is needed. -/
theorem Tape.get_put_other {a b : Nat} (m : Tape) (v : CellVal) (h : b ≠ a) : Tape.get (Tape.put m a v) b = Tape.get m b := by
  induction m with
  | nil => by_cases hv : v = 0#32 <;> simp [Tape.put, Tape.get, hv, h.symm]
  | cons x rest ih =>
    obtain ⟨k, w⟩ := x
    unfold Tape.put
    split
    · simp only [Tape.get, ih]
    · split
      · rename_i heq
        subst heq
        by_cases hv : v = 0#32 <;> simp [hv, Tape.get, h.symm]
      · by_cases hv : v = 0#32
        · simp [hv]
        · simp only [hv, if_false, Tape.get]
          rw [if_neg h.symm]

/-- `MemWrite` keeps the canonical form. -/
theorem Tape.wf_write {m m' : Tape} {a : Nat} {v : CellVal} (h : Tape.wf m = true) (hw : Tape.write m a v = some m') :
    Tape.wf m' = true := by
  unfold Tape.write at hw
  split at hw
  · cases hw
    exact Tape.wfFrom_put v h (Nat.zero_le _) ‹_›
  · cases hw

/-- `MemRead` after `MemWrite` at the same index gives the value written. -/
theorem Tape.read_write_same {m m' : Tape} {a : Nat} {v : CellVal} (h : Tape.wf m = true) (hw : Tape.write m a v = some m') :
    Tape.read m' a = some v := by
  unfold Tape.write at hw
  split at hw
  · cases hw
    rename_i ha
    simp [Tape.read, ha, Tape.get_put_same v h]
  · cases hw

/-- `MemWrite` changes no other cell. -/
theorem Tape.read_write_other {m m' : Tape} {a b : Nat} {v : CellVal} (hw : Tape.write m a v = some m') (hb : b ≠ a) :
    Tape.read m' b = Tape.read m b := by
  unfold Tape.write at hw
  split at hw
  · cases hw
    simp [Tape.read, Tape.get_put_other m v hb]
  · cases hw

/-- Inside the tape `MemWrite` succeeds. -/
theorem Tape.write_of_lt {a : Nat} (m : Tape) (v : CellVal) (h : a < tapeLen) : Tape.write m a v = some (Tape.put m a v) := by
  simp [Tape.write, h]

/-- Inside the tape `MemRead` succeeds. -/
theorem Tape.read_of_lt {a : Nat} (m : Tape) (h : a < tapeLen) : Tape.read m a = some (Tape.get m a) := by
  simp [Tape.read, h]

/-- A read that answers is inside the tape. -/
theorem Tape.lt_of_read {m : Tape} {a : Nat} {v : CellVal} (h : Tape.read m a = some v) : a < tapeLen := by
  unfold Tape.read at h
  split at h
  · assumption
  · cases h

/-- The tape after reset is in canonical form. -/
theorem Tape.wf_reset (par : Params) : Tape.wf (State.resetWith par).mem = true := rfl

end Sys2Proof.Machine
end

