-- ==== Sys2Proof/Laws/Ops.lean ====
section
/-! SUPPORT. For each shared operation, everything it can do, said once. -/

namespace Sys2Proof.Machine

/-- A meaning that starts by reading the current cell goes on with the value the cell has. -/
theorem withCurrentCell_of_read {s : State} {v : CellVal} (k : CellVal → Result) (h : Tape.read s.mem s.ptr = some v) :
    withCurrentCell s k = k v := by
  simp [withCurrentCell, h]

/-- If it answers a next state, the cell was there and the rest of the meaning answered it. -/
theorem withCurrentCell_next {s t : State} {k : CellVal → Result} (h : withCurrentCell s k = .next t) :
    ∃ v, Tape.read s.mem s.ptr = some v ∧ k v = .next t := by
  unfold withCurrentCell at h
  split at h
  · exact ⟨_, ‹_›, h⟩
  · cases h

/-- If it faults, the cell was not there or the rest of the meaning faulted. -/
theorem withCurrentCell_fault {s : State} {k : CellVal → Result} {r : Fault} (h : withCurrentCell s k = .fault r) :
    (Tape.read s.mem s.ptr = none ∧ r = .noSuchCell) ∨ ∃ v, Tape.read s.mem s.ptr = some v ∧ k v = .fault r := by
  unfold withCurrentCell at h
  split at h
  · exact .inr ⟨_, ‹_›, h⟩
  · cases h
    exact .inl ⟨‹_›, rfl⟩

/-- A store inside the tape answers a next state that differs in the tape alone, in canonical form, with the current cell written and no other. -/
theorem storeCurrentCell_of_lt {s : State} (v : CellVal) (h : s.ptr < tapeLen) (hw : Tape.wf s.mem = true) :
    ∃ m, storeCurrentCell v s = .next { s with mem := m } ∧ Tape.wf m = true ∧ Tape.read m s.ptr = some v ∧
      ∀ a, a ≠ s.ptr → Tape.read m a = Tape.read s.mem a := by
  have e := Tape.write_of_lt s.mem v h
  exact ⟨_, by simp [storeCurrentCell, e, State.setMem], Tape.wf_write hw e, Tape.read_write_same hw e,
    fun a ha => Tape.read_write_other e ha⟩

/-- If a store answers a next state, it wrote the current cell and nothing else. -/
theorem storeCurrentCell_next {s t : State} {v : CellVal} (h : storeCurrentCell v s = .next t) :
    s.ptr < tapeLen ∧ ∃ m, Tape.write s.mem s.ptr v = some m ∧ t = s.setMem m := by
  unfold storeCurrentCell at h
  split at h
  · rename_i m hm
    cases h
    refine ⟨?_, m, hm, rfl⟩
    unfold Tape.write at hm
    split at hm
    · assumption
    · cases hm
  · cases h

/-- A store faults only outside the tape. -/
theorem storeCurrentCell_fault {s : State} {v : CellVal} {r : Fault} (h : storeCurrentCell v s = .fault r) : ¬ s.ptr < tapeLen := by
  unfold storeCurrentCell at h
  split at h
  · cases h
  · rename_i hm
    intro hlt
    simp [Tape.write, hlt] at hm

/-- What raising a failure answers (60 R175). -/
@[simp] theorem raise_eq (k : Failure) (s : State) : raise k s = .next (s.takeFailure k) := rfl

/-- A byte that is there is taken, and `in_pos` passes it (45 R125). -/
theorem takeByte_of_getElem {s : State} {b : Byte} (h : s.par.input[s.inPos]? = some b) :
    takeByte s = .got b (s.setInPos (s.inPos + 1)) := by
  simp [takeByte, h]

/-- Everything a byte read can do (45 R125). -/
theorem takeByte_cases (s : State) :
    (∃ b, s.par.input[s.inPos]? = some b ∧ takeByte s = .got b (s.setInPos (s.inPos + 1))) ∨
    (s.par.input[s.inPos]? = none ∧ takeByte s = .endOfInput) := by
  cases h : s.par.input[s.inPos]? with
  | some b => exact .inl ⟨b, rfl, takeByte_of_getElem h⟩
  | none => exact .inr ⟨rfl, by simp [takeByte, h]⟩

/-- Everything a line read can do (45 R130). -/
theorem takeLine_cases (s : State) :
    (s.inPos < s.par.input.length ∧
      takeLine s = .got (firstLine (s.par.input.drop s.inPos))
        (s.setInPos (s.inPos + (firstLine (s.par.input.drop s.inPos)).length))) ∨
    (s.par.input.length ≤ s.inPos ∧ takeLine s = .endOfInput) := by
  unfold takeLine
  split
  · rename_i h
    exact .inr ⟨by simpa using h, rfl⟩
  · rename_i b rest h
    refine .inl ⟨?_, by rw [h]⟩
    by_contra hn
    rw [List.drop_eq_nil_of_le (by omega)] at h
    cases h

/-- A line is never longer than what it is taken from. -/
theorem firstLine_length_le (l : List Byte) : (firstLine l).length ≤ l.length := by
  induction l with
  | nil => exact Nat.le_refl _
  | cons b rest ih =>
    unfold firstLine
    split <;> simp
    exact ih

@[simp] theorem finishStep_next (t : State) : finishStep (.next t) = .next t.postIncrement := rfl
@[simp] theorem finishStep_fault (r : Fault) : finishStep (.fault r) = .fault r := rfl
@[simp] theorem finishStep_refused (r : Refusal) : finishStep (.refused r) = .refused r := rfl

/-- If a finished step is a next state, it is a meaning's next state, advanced. -/
theorem finishStep_eq_next {r : Result} {t : State} (h : finishStep r = .next t) : ∃ u, r = .next u ∧ t = u.postIncrement := by
  cases r with
  | next u => exact ⟨u, rfl, by simpa using h.symm⟩
  | fault f => cases h
  | refused f => cases h

end Sys2Proof.Machine
end

