-- ==== Sys2Proof/Laws/Exec.lean ====
section
/-! SUPPORT. For each instruction, what is true when its meaning answers a next state and when it faults, said once, so that a statement over all
instructions is a short case analysis and unfolds no meaning. -/

namespace Sys2Proof.Machine

/-- The zero test of the brackets and of ReadOrWrite, as an equation of cells. -/
theorem isZeroCell_iff (v : CellVal) : isZeroCell v = true ↔ v = 0#32 := by
  simp [isZeroCell, ← BitVec.toInt_inj]

/-- The empty line does not parse, under either binding. -/
theorem parseLine_nil (b : ParseBinding) : parseLine b [] = none := by
  cases b <;> rfl

/-- What an instruction other than ExecuteValue has done when it answers `t`. -/
def DirectNext (i : Instr) (s t : State) : Prop :=
  match i with
  | .executeValue => False
  | .endLoop => ∃ v, Tape.read s.mem s.ptr = some v ∧
      ((v = 0#32 ∧ t = s) ∨
       (v ≠ 0#32 ∧ ((∃ k, findBwd s.prog s.pc = some k ∧ t = s.setPc k) ∨
                    (findBwd s.prog s.pc = none ∧ t = s.takeFailure .unmatchedBeginLoop))))
  | .beginLoop => ∃ v, Tape.read s.mem s.ptr = some v ∧
      ((v ≠ 0#32 ∧ t = s) ∨
       (v = 0#32 ∧ ((∃ k, findFwd s.prog s.pc = some k ∧ t = s.setPc k) ∨
                    (findFwd s.prog s.pc = none ∧ t = s.takeFailure .unmatchedEndLoop))))
  | .decrementPointer => (s.ptr = 0 ∧ t = s.takeFailure .overflow) ∨ (s.ptr ≠ 0 ∧ t = s.setPtr (s.ptr - 1))
  | .incrementPointer => (30000 ≤ s.ptr + 1 ∧ t = s.takeFailure .overflow) ∨ (s.ptr + 1 < 30000 ∧ t = s.setPtr (s.ptr + 1))
  | .readOrWrite => ∃ v, Tape.read s.mem s.ptr = some v ∧
      ((v ≠ 0#32 ∧ t = s.output [byteOfCell v]) ∨
       (v = 0#32 ∧
        ((∃ b, s.par.input[s.inPos]? = some b ∧ b.toNat ≤ 0x7F ∧
            ∃ m, Tape.write s.mem s.ptr (cellOfByte b) = some m ∧ t = (s.setInPos (s.inPos + 1)).setMem m) ∨
         (∃ b, s.par.input[s.inPos]? = some b ∧ 0x7F < b.toNat ∧ t = (s.setInPos (s.inPos + 1)).takeFailure .notAscii) ∨
         (s.par.input[s.inPos]? = none ∧ s.par.eofByte = .failNotAscii ∧ t = s.takeFailure .notAscii))))
  | .decrementByte => ∃ v m, Tape.read s.mem s.ptr = some v ∧ Tape.write s.mem s.ptr (cellDecrement v) = some m ∧ t = s.setMem m
  | .incrementByte => ∃ v m, Tape.read s.mem s.ptr = some v ∧ Tape.write s.mem s.ptr (cellIncrement v) = some m ∧ t = s.setMem m
  | .setZero => ∃ m, Tape.write s.mem s.ptr 0#32 = some m ∧ t = s.setMem m
  | .copyOrPaste =>
      (s.reg = none ∧ ∃ v, Tape.read s.mem s.ptr = some v ∧ t = s.setReg (some v)) ∨
      (∃ v m, s.reg = some v ∧ Tape.write s.mem s.ptr v = some m ∧ t = (s.setReg none).setMem m)
  | .writeStdout => ∃ v, Tape.read s.mem s.ptr = some v ∧ t = s.output (decString v)
  | .readStdin =>
      (s.inPos < s.par.input.length ∧
        ((∃ v m, parseLine s.par.parse (firstLine (s.par.input.drop s.inPos)) = some v ∧ Tape.write s.mem s.ptr v = some m ∧
            t = (s.setInPos (s.inPos + (firstLine (s.par.input.drop s.inPos)).length)).setMem m) ∨
         (parseLine s.par.parse (firstLine (s.par.input.drop s.inPos)) = none ∧
            t = (s.setInPos (s.inPos + (firstLine (s.par.input.drop s.inPos)).length)).takeFailure .notInteger))) ∨
      (s.par.input.length ≤ s.inPos ∧ s.par.eofLine = .emptyLine ∧ t = s.takeFailure .notInteger)

/-- Why an instruction other than ExecuteValue has stopped with `r`. -/
def DirectFault (i : Instr) (s : State) (r : Fault) : Prop :=
  match i with
  | .executeValue | .decrementPointer | .incrementPointer => False
  | .endLoop | .beginLoop | .decrementByte | .incrementByte | .writeStdout | .setZero | .copyOrPaste =>
      tapeLen ≤ s.ptr ∧ r = .noSuchCell
  | .readOrWrite =>
      (tapeLen ≤ s.ptr ∧ r = .noSuchCell) ∨
      (Tape.read s.mem s.ptr = some 0#32 ∧ s.par.input[s.inPos]? = none ∧ s.par.eofByte = .stuck ∧ r = .stuckOnByteRead)
  | .readStdin =>
      (s.inPos < s.par.input.length ∧ parseLine s.par.parse (firstLine (s.par.input.drop s.inPos)) ≠ none ∧
        tapeLen ≤ s.ptr ∧ r = .noSuchCell) ∨
      (s.par.input.length ≤ s.inPos ∧ s.par.eofLine = .stuck ∧ r = .stuckOnLineRead)

/-- Everything an instruction other than ExecuteValue can have done when it answers a next state. -/
theorem exec_next {i : Instr} {s t : State} (hi : i ≠ .executeValue) (he : exec i s = .next t) : DirectNext i s t := by
  revert he
  refine Iff.mp ?_
  cases i with
  | executeValue => exact absurd rfl hi
  | endLoop =>
    simp only [exec, execEndLoop, DirectNext]
    unfold withCurrentCell
    cases h : Tape.read s.mem s.ptr with
    | none => simp
    | some v =>
      by_cases hv : v = 0#32
      · subst hv; simp [(isZeroCell_iff 0#32).2 rfl, @eq_comm _ t]
      · have : isZeroCell v = false := by rw [← Bool.not_eq_true, isZeroCell_iff]; exact hv
        cases hf : findBwd s.prog s.pc <;> simp [this, hv, @eq_comm _ t]
  | beginLoop =>
    simp only [exec, execBeginLoop, DirectNext]
    unfold withCurrentCell
    cases h : Tape.read s.mem s.ptr with
    | none => simp
    | some v =>
      by_cases hv : v = 0#32
      · subst hv; cases hf : findFwd s.prog s.pc <;> simp [(isZeroCell_iff 0#32).2 rfl, @eq_comm _ t]
      · have : isZeroCell v = false := by rw [← Bool.not_eq_true, isZeroCell_iff]; exact hv
        simp [this, hv, @eq_comm _ t]
  | decrementPointer =>
    simp only [exec, execDecrementPointer, DirectNext, atTapeStart]
    by_cases h : s.ptr = 0 <;> simp [h, @eq_comm _ t]
  | incrementPointer =>
    simp only [exec, execIncrementPointer, DirectNext, atTapeEnd, tapeLen]
    by_cases h : 30000 ≤ s.ptr + 1
    · simp [h, @eq_comm _ t]
    · simp [h, @eq_comm _ t]
      omega
  | readOrWrite =>
    simp only [exec, execReadOrWrite, DirectNext]
    unfold withCurrentCell
    cases h : Tape.read s.mem s.ptr with
    | none => simp
    | some v =>
      by_cases hv : v = 0#32
      · simp only [(isZeroCell_iff v).2 hv, if_true, readPath]
        have hlt := Tape.lt_of_read h
        subst hv
        rcases takeByte_cases s with ⟨b, hb, ht⟩ | ⟨hb, ht⟩
        · rw [ht]
          simp only [hb, isAscii]
          by_cases hb' : b.toNat ≤ 0x7F
          · simp [hb', storeCurrentCell, Tape.write, hlt, @eq_comm _ t]
          · simp [hb', @eq_comm _ t]; omega
        · rw [ht]; simp only [hb]
          cases hp : s.par.eofByte <;> simp [@eq_comm _ t]
      · have : isZeroCell v = false := by rw [← Bool.not_eq_true, isZeroCell_iff]; exact hv
        simp [this, hv, @eq_comm _ t]
  | decrementByte =>
    simp only [exec, execDecrementByte, DirectNext, withCurrentCell, storeCurrentCell, Tape.read, Tape.write]
    by_cases h : s.ptr < tapeLen <;> simp [h, @eq_comm _ t]
  | incrementByte =>
    simp only [exec, execIncrementByte, DirectNext, withCurrentCell, storeCurrentCell, Tape.read, Tape.write]
    by_cases h : s.ptr < tapeLen <;> simp [h, @eq_comm _ t]
  | setZero =>
    simp only [exec, execSetZero, DirectNext, storeCurrentCell, Tape.write]
    by_cases h : s.ptr < tapeLen <;> simp [h, @eq_comm _ t]
  | copyOrPaste =>
    simp only [exec, execCopyOrPaste, DirectNext, withCurrentCell, storeCurrentCell, Tape.read, Tape.write]
    cases hr : s.reg <;>
    by_cases h : s.ptr < tapeLen <;> simp [h, @eq_comm _ t]
  | writeStdout =>
    simp only [exec, execWriteStdout, DirectNext, withCurrentCell, Tape.read]
    by_cases h : s.ptr < tapeLen <;> simp [h, @eq_comm _ t]
  | readStdin =>
    simp only [exec, execReadStdin, DirectNext]
    rcases takeLine_cases s with ⟨hb, ht⟩ | ⟨hb, ht⟩
    · rw [ht]
      simp only [storeParsedLine, hb, Nat.not_le.2 hb, false_and, or_false, true_and]
      have : (s.setInPos (s.inPos + (firstLine (s.par.input.drop s.inPos)).length)).par.parse = s.par.parse := rfl
      rw [this]
      cases hp : parseLine s.par.parse (firstLine (s.par.input.drop s.inPos)) with
      | none => simp [@eq_comm _ t]
      | some v =>
        simp only [storeCurrentCell, Tape.write]
        by_cases h : s.ptr < tapeLen <;> simp [h, @eq_comm _ t]
    · rw [ht]
      cases hp : s.par.eofLine <;> simp [storeParsedLine, parseLine_nil, @eq_comm _ t, Nat.not_lt.2 hb, hb]

/-- Every reason for which an instruction other than ExecuteValue can fault. -/
theorem exec_fault {i : Instr} {s : State} {r : Fault} (hi : i ≠ .executeValue) (he : exec i s = .fault r) : DirectFault i s r := by
  revert he
  refine Iff.mp ?_
  cases i with
  | executeValue => exact absurd rfl hi
  | endLoop =>
    simp only [exec, execEndLoop, DirectFault, withCurrentCell, Tape.read]
    by_cases h : s.ptr < tapeLen
    · simp [h]; repeat' split
      all_goals (simp; omega)
    · simp [h, @eq_comm _ r]; omega
  | beginLoop =>
    simp only [exec, execBeginLoop, DirectFault, withCurrentCell, Tape.read]
    by_cases h : s.ptr < tapeLen
    · simp [h]; repeat' split
      all_goals (simp; omega)
    · simp [h, @eq_comm _ r]; omega
  | decrementPointer => simp only [exec, execDecrementPointer, DirectFault]; split <;> simp
  | incrementPointer => simp only [exec, execIncrementPointer, DirectFault]; split <;> simp
  | decrementByte =>
    simp only [exec, execDecrementByte, DirectFault, withCurrentCell, storeCurrentCell, Tape.read, Tape.write]
    by_cases h : s.ptr < tapeLen <;> simp [h, @eq_comm _ r]; omega
  | incrementByte =>
    simp only [exec, execIncrementByte, DirectFault, withCurrentCell, storeCurrentCell, Tape.read, Tape.write]
    by_cases h : s.ptr < tapeLen <;> simp [h, @eq_comm _ r]; omega
  | setZero =>
    simp only [exec, execSetZero, DirectFault, storeCurrentCell, Tape.write]
    by_cases h : s.ptr < tapeLen <;> simp [h, @eq_comm _ r]; omega
  | writeStdout =>
    simp only [exec, execWriteStdout, DirectFault, withCurrentCell, Tape.read]
    by_cases h : s.ptr < tapeLen <;> simp [h, @eq_comm _ r]; omega
  | copyOrPaste =>
    simp only [exec, execCopyOrPaste, DirectFault, withCurrentCell, storeCurrentCell, Tape.read, Tape.write]
    cases hr : s.reg <;>
    by_cases h : s.ptr < tapeLen <;> simp [h, @eq_comm _ r] <;> omega
  | readOrWrite =>
    simp only [exec, execReadOrWrite, DirectFault]
    unfold withCurrentCell
    cases h : Tape.read s.mem s.ptr with
    | none =>
      have : ¬ s.ptr < tapeLen := by intro hl; rw [Tape.read_of_lt _ hl] at h; cases h
      simp [@eq_comm _ r]; omega
    | some v =>
      have hlt := Tape.lt_of_read h
      by_cases hv : v = 0#32
      · subst hv
        simp only [(isZeroCell_iff 0#32).2 rfl, if_true, readPath]
        rcases takeByte_cases s with ⟨b, hb, ht⟩ | ⟨hb, ht⟩
        · rw [ht]
          simp only [hb, isAscii]
          by_cases hb' : b.toNat ≤ 0x7F
          · simp [hb', storeCurrentCell, Tape.write, hlt]
          · simp [hb']; omega
        · rw [ht]; simp only [hb]
          cases hp : s.par.eofByte <;> simp [@eq_comm _ r] <;> omega
      · have : isZeroCell v = false := by rw [← Bool.not_eq_true, isZeroCell_iff]; exact hv
        simp [this, hv]; omega
  | readStdin =>
    simp only [exec, execReadStdin, DirectFault]
    rcases takeLine_cases s with ⟨hb, ht⟩ | ⟨hb, ht⟩
    · rw [ht]
      simp only [storeParsedLine, hb, Nat.not_le.2 hb, false_and, or_false, true_and]
      have : (s.setInPos (s.inPos + (firstLine (s.par.input.drop s.inPos)).length)).par.parse = s.par.parse := rfl
      rw [this]
      cases hp : parseLine s.par.parse (firstLine (s.par.input.drop s.inPos)) with
      | none => simp
      | some v =>
        simp only [storeCurrentCell, Tape.write]
        by_cases h : s.ptr < tapeLen <;> simp [h, @eq_comm _ r]; omega
    · rw [ht]
      cases hp : s.par.eofLine <;> simp [storeParsedLine, parseLine_nil, @eq_comm _ r, Nat.not_lt.2 hb, hb]

/-- A cell that passes the range check names an instruction. -/
theorem instrOfCode_of_valid {v : CellVal} (h : ¬ isInvalidCode v = true) : instrOfCode v.toInt ≠ none := by
  simp only [isInvalidCode, Bool.or_eq_true, decide_eq_true_eq] at h
  generalize v.toInt = n at h
  have h0 : 0 ≤ n := by omega
  have h1 : n ≤ 11 := by omega
  interval_cases n <;> decide

/-- An ExecuteValue that answers a next state has failed one of its two checks, or is the instruction that the cell names. -/
theorem exec_executeValue_next {s t : State} (he : exec .executeValue s = .next t) :
    ∃ v, Tape.read s.mem s.ptr = some v ∧
      (((v.toInt < 0 ∨ 11 < v.toInt) ∧ t = s.takeFailure .invalidCode) ∨
       (instrOfCode v.toInt = some .executeValue ∧ t = s.takeFailure .infiniteLoop) ∨
       ∃ j, instrOfCode v.toInt = some j ∧ j ≠ .executeValue ∧ exec j s = .next t) := by
  obtain ⟨v, hv, hk⟩ := withCurrentCell_next he
  refine ⟨v, hv, ?_⟩
  by_cases h : isInvalidCode v = true
  · rw [if_pos h] at hk
    cases hk
    exact .inl ⟨by simpa [isInvalidCode] using h, rfl⟩
  · rw [if_neg h] at hk
    cases hj : instrOfCode v.toInt with
    | none => exact absurd hj (instrOfCode_of_valid h)
    | some j =>
      rw [hj] at hk
      cases j
      case executeValue => cases hk; exact .inr (.inl ⟨rfl, rfl⟩)
      all_goals exact .inr (.inr ⟨_, rfl, by decide, hk⟩)

/-- An ExecuteValue that faults stands on no cell, or is the instruction that the cell names, which faults. -/
theorem exec_executeValue_fault {s : State} {r : Fault} (he : exec .executeValue s = .fault r) :
    (Tape.read s.mem s.ptr = none ∧ r = .noSuchCell) ∨
    ∃ v j, Tape.read s.mem s.ptr = some v ∧ instrOfCode v.toInt = some j ∧ j ≠ .executeValue ∧ exec j s = .fault r := by
  rcases withCurrentCell_fault he with h | ⟨v, hv, hk⟩
  · exact .inl h
  · refine .inr ?_
    by_cases h : isInvalidCode v = true
    · rw [if_pos h] at hk
      cases hk
    · rw [if_neg h] at hk
      cases hj : instrOfCode v.toInt with
      | none => exact absurd hj (instrOfCode_of_valid h)
      | some j =>
        rw [hj] at hk
        cases j
        case executeValue => cases hk
        all_goals exact ⟨v, _, hv, hj, by decide, hk⟩

end Sys2Proof.Machine
end

