-- ==== Sys2Proof/Laws/PerInstr.lean ====
section
/-! SUPPORT. Statements about every instruction as syntax, one lemma per constructor: its token and its code come back (spec/30_encoding.md R60, R71). -/

namespace Sys2Proof.Laws

/-- Decoding an instruction's token, whatever follows it, gives that instruction and what follows (30 R71; 40 R85). -/
def TokenRoundTrip.Statement (i : Instr) : Prop := i.wf = true → ∀ rest : List Byte, decode (encode i ++ rest) = .ok (i, rest)

theorem TokenRoundTrip.endLoop : TokenRoundTrip.Statement .endLoop := fun _ _ => rfl
theorem TokenRoundTrip.decrementPointer : TokenRoundTrip.Statement .decrementPointer := fun _ _ => rfl
theorem TokenRoundTrip.incrementPointer : TokenRoundTrip.Statement .incrementPointer := fun _ _ => rfl
theorem TokenRoundTrip.executeValue : TokenRoundTrip.Statement .executeValue := fun _ _ => rfl
theorem TokenRoundTrip.readOrWrite : TokenRoundTrip.Statement .readOrWrite := fun _ _ => rfl
theorem TokenRoundTrip.decrementByte : TokenRoundTrip.Statement .decrementByte := fun _ _ => rfl
theorem TokenRoundTrip.incrementByte : TokenRoundTrip.Statement .incrementByte := fun _ _ => rfl
theorem TokenRoundTrip.beginLoop : TokenRoundTrip.Statement .beginLoop := fun _ _ => rfl
theorem TokenRoundTrip.setZero : TokenRoundTrip.Statement .setZero := fun _ _ => rfl
theorem TokenRoundTrip.copyOrPaste : TokenRoundTrip.Statement .copyOrPaste := fun _ _ => rfl
theorem TokenRoundTrip.writeStdout : TokenRoundTrip.Statement .writeStdout := fun _ _ => rfl
theorem TokenRoundTrip.readStdin : TokenRoundTrip.Statement .readStdin := fun _ _ => rfl

/-- An instruction's code names it, and its 4-bit stored element is one of 0 to 11 and names it too (30 R60, R64, R70). -/
def CodeRoundTrip.Statement (i : Instr) : Prop :=
  instrOfCode (code i) = some i ∧ storedCodeWf (storedCode i) = true ∧ instrOfStoredCode (storedCode i) = some i

theorem CodeRoundTrip.endLoop : CodeRoundTrip.Statement .endLoop := ⟨rfl, rfl, rfl⟩
theorem CodeRoundTrip.decrementPointer : CodeRoundTrip.Statement .decrementPointer := ⟨rfl, rfl, rfl⟩
theorem CodeRoundTrip.incrementPointer : CodeRoundTrip.Statement .incrementPointer := ⟨rfl, rfl, rfl⟩
theorem CodeRoundTrip.executeValue : CodeRoundTrip.Statement .executeValue := ⟨rfl, rfl, rfl⟩
theorem CodeRoundTrip.readOrWrite : CodeRoundTrip.Statement .readOrWrite := ⟨rfl, rfl, rfl⟩
theorem CodeRoundTrip.decrementByte : CodeRoundTrip.Statement .decrementByte := ⟨rfl, rfl, rfl⟩
theorem CodeRoundTrip.incrementByte : CodeRoundTrip.Statement .incrementByte := ⟨rfl, rfl, rfl⟩
theorem CodeRoundTrip.beginLoop : CodeRoundTrip.Statement .beginLoop := ⟨rfl, rfl, rfl⟩
theorem CodeRoundTrip.setZero : CodeRoundTrip.Statement .setZero := ⟨rfl, rfl, rfl⟩
theorem CodeRoundTrip.copyOrPaste : CodeRoundTrip.Statement .copyOrPaste := ⟨rfl, rfl, rfl⟩
theorem CodeRoundTrip.writeStdout : CodeRoundTrip.Statement .writeStdout := ⟨rfl, rfl, rfl⟩
theorem CodeRoundTrip.readStdin : CodeRoundTrip.Statement .readStdin := ⟨rfl, rfl, rfl⟩

end Sys2Proof.Laws
end

