-- ==== Sys2Proof/Laws/Step.lean ====
section
/-! SUPPORT. The step in each phase (spec/10_state.md R28; spec/40_decoder.md R82; spec/41_vm_cycle.md R102), so that no proof unfolds it. -/

namespace Sys2Proof.Machine

theorem step_of_decode {s : State} (h : s.phase = .decode) : step s = .next (scanAction s) := by
  simp [step, h]

theorem step_of_done {s : State} (h : s.phase = .done) : step s = .next s := by
  simp [step, h]

theorem step_of_failed {s : State} (h : s.phase = .failed) : step s = .next s := by
  simp [step, h]

theorem step_of_end {s : State} (h : s.phase = .run) (hp : s.pc = s.prog.length) : step s = .next (s.setPhase .done) := by
  simp [step, h, vmStep, hp]

theorem step_of_fetch {s : State} {i : Instr} (h : s.phase = .run) (hf : s.prog[s.pc]? = some i) : step s = finishStep (exec i s) := by
  have hp : s.pc ≠ s.prog.length := by
    intro e
    rw [e, List.getElem?_length] at hf
    cases hf
  simp [step, h, vmStep, hp, fetch, hf]

/-- Everything a step can do: scan, finish at the program's end, execute the fetched instruction, stay, or find nothing to fetch. -/
theorem step_cases (s : State) :
    (s.phase = .decode ∧ step s = .next (scanAction s)) ∨
    (s.phase = .run ∧ s.pc = s.prog.length ∧ step s = .next (s.setPhase .done)) ∨
    (s.phase = .run ∧ (∃ i, s.prog[s.pc]? = some i ∧ step s = finishStep (exec i s))) ∨
    (s.phase = .run ∧ s.prog.length < s.pc ∧ step s = .fault .noSuchInstruction) ∨
    ((s.phase = .done ∨ s.phase = .failed) ∧ step s = .next s) := by
  cases h : s.phase with
  | decode => exact .inl ⟨rfl, step_of_decode h⟩
  | done => exact .inr (.inr (.inr (.inr ⟨.inl rfl, step_of_done h⟩)))
  | failed => exact .inr (.inr (.inr (.inr ⟨.inr rfl, step_of_failed h⟩)))
  | run =>
    by_cases hp : s.pc = s.prog.length
    · exact .inr (.inl ⟨rfl, hp, step_of_end h hp⟩)
    · cases hf : s.prog[s.pc]? with
      | some i => exact .inr (.inr (.inl ⟨rfl, i, rfl, step_of_fetch h hf⟩))
      | none =>
        have hl : s.prog.length ≤ s.pc := List.getElem?_eq_none_iff.mp hf
        exact .inr (.inr (.inr (.inl ⟨rfl, by omega, by simp [step, h, vmStep, hp, fetch, hf]⟩)))

/-! ### Runs of the host's machine -/

@[simp] theorem core_run_zero (s : State) : Host.Core.run core 0 s = .next s := rfl

/-- A run of one step more is the step and then the run, on any machine. -/
theorem run_succ_of_next (M : Host.Core) {s t : M.State} (n : Nat) (h : M.step s = .next t) : M.run (n + 1) s = M.run n t := by
  rw [Host.Core.run, h]

/-- A run of this machine of one step more is the step and then the run. -/
theorem core_run_succ {s t : State} (n : Nat) (h : step s = .next t) : Host.Core.run core (n + 1) s = Host.Core.run core n t :=
  run_succ_of_next core n h

end Sys2Proof.Machine
end

