-- ==== Sys2Proof/Tests/Slice0.lean ====
section
/-! SUPPORT. The model's own tests. Part 1: the checks of WellFormed. Part 2: tokens written out bit by bit from spec/30_encoding.md R63 and
spec/opcode_table.json. Part 3: the whole decode, from spec/95_test_vectors.md. Part 4: one step each, from the vectors named. Part 5: for every
obligation with hypotheses, a state and operands that meet them, one for each clause. -/

namespace Sys2Proof.Machine.Tests

open Sys2Proof

/-- A machine in phase Run with a hand-built program (70 R193), a tape and a pointer, all else as after reset. -/
def vm (prog : List Instr) (mem : Tape) (ptr : Nat) : State :=
  { State.resetWith Params.unsupplied with prog := prog, mem := mem, ptr := ptr, phase := .run }

/-- The same, with an input. -/
def vmIn (prog : List Instr) (mem : Tape) (ptr : Nat) (input : List Byte) : State :=
  { vm prog mem ptr with par := { Params.unsupplied with input := input } }

/-- A machine in phase Decode over a source buffer. -/
def scanner (src : List Byte) (cur : Nat) : State :=
  { State.resetWith { Params.unsupplied with src := src } with cur := cur }

/-- The next state of a step or of a meaning, if that is what it answers. -/
def nextOf : Result → Option State
  | .next t => some t
  | _ => none

/-- The fault of a step or of a meaning, if that is what it answers. -/
def faultOf : Result → Option Fault
  | .fault r => some r
  | _ => none

/-- What the token decoder reads, if it reads an instruction. -/
def decoded (l : List Byte) : Option (Instr × List Byte) :=
  match decode l with
  | .ok x => some x
  | .error _ => none

/-! ### Part 1: the checks refuse what is ill-formed -/

theorem test_wf_accepts_every_instruction : allInstrs.all Instr.wf = true := by decide
theorem test_storedCodeWf_refuses_twelve : storedCodeWf 12#4 = false ∧ storedCodeWf 11#4 = true := by decide
theorem test_isAlphabetByte_refuses_a_space : isAlphabetByte 0x20#8 = false ∧ isAlphabetByte 0x6F#8 = true := by decide
theorem test_tokenLettersWf_refuses_other_letters :
    tokenLettersWf [0x6D#8, 0x6F#8, 0x30#8] = false ∧ tokenLettersWf [0x6D#8, 0x6F#8] = false ∧
    tokenLettersWf [0x6D#8, 0x6F#8, 0x6F#8] = true := by decide
/-- PROG_MAX below floor(SRC_LEN/3) is refused, and floor(SRC_LEN/3) itself is not (00 R5). -/
theorem test_params_admitted_refuses :
    ({ Params.unsupplied with src := [0x4F#8, 0x4F#8, 0x4F#8], progMax := 0 }).admitted = false ∧
    ({ Params.unsupplied with src := [0x4F#8, 0x4F#8, 0x4F#8], progMax := 1 }).admitted = true := by decide
/-- A tape that is not sorted, one that lists a 0, one that lists a cell outside. -/
theorem test_tape_wf_refuses :
    Tape.wf [(2, 1#32), (1, 1#32)] = false ∧ Tape.wf [(0, 0#32)] = false ∧ Tape.wf [(30000, 1#32)] = false ∧
    Tape.wf [(0, 1#32), (29999, 5#32)] = true := by decide

/-! ### Part 2: tokens, bit by bit from the "encoding" column of spec/opcode_table.json -/

theorem test_word_endLoop : decoded [0b01101101#8, 0b01101111#8, 0b01101111#8] = some (.endLoop, []) := by decide
theorem test_word_decrementPointer : decoded [0b01101101#8, 0b01001111#8, 0b01101111#8] = some (.decrementPointer, []) := by decide
theorem test_word_incrementPointer : decoded [0b01101101#8, 0b01101111#8, 0b01001111#8] = some (.incrementPointer, []) := by decide
theorem test_word_executeValue : decoded [0b01101101#8, 0b01001111#8, 0b01001111#8] = some (.executeValue, []) := by decide
theorem test_word_readOrWrite : decoded [0b01001101#8, 0b01101111#8, 0b01101111#8] = some (.readOrWrite, []) := by decide
theorem test_word_decrementByte : decoded [0b01001101#8, 0b01001111#8, 0b01101111#8] = some (.decrementByte, []) := by decide
theorem test_word_incrementByte : decoded [0b01001101#8, 0b01101111#8, 0b01001111#8] = some (.incrementByte, []) := by decide
theorem test_word_beginLoop : decoded [0b01001101#8, 0b01001111#8, 0b01001111#8] = some (.beginLoop, []) := by decide
theorem test_word_setZero : decoded [0b01001111#8, 0b01001111#8, 0b01001111#8] = some (.setZero, []) := by decide
theorem test_word_copyOrPaste : decoded [0b01001101#8, 0b01001101#8, 0b01001101#8] = some (.copyOrPaste, []) := by decide
theorem test_word_writeStdout : decoded [0b01001111#8, 0b01001111#8, 0b01001101#8] = some (.writeStdout, []) := by decide
theorem test_word_readStdin : decoded [0b01101111#8, 0b01101111#8, 0b01101101#8] = some (.readStdin, []) := by decide
/-- The "match" column, as the host gives it: EndLoop and ReadStdin tell the byte order apart. -/
theorem test_decodeTableWord_byte_order :
    decodeTableWord 24 0x6D6F6F = some .endLoop ∧ decodeTableWord 24 0x6F6F6D = some .readStdin ∧
    decodeTableWord 24 0x4D4D4D = some .copyOrPaste ∧ decodeTableWord 24 0x4D4D6D = none := by decide
/-- 30 R64, first and last rows and the codes outside. -/
theorem test_instrOfCode_edges :
    instrOfCode 0 = some .endLoop ∧ instrOfCode 3 = some .executeValue ∧ instrOfCode 11 = some .readStdin ∧
    instrOfCode 12 = none ∧ instrOfCode (-1) = none := by decide
/-- 30 R66: `MMm` and `OMO` are triples of letters and no tokens. -/
theorem test_letters_that_are_no_token :
    decoded [0x4D#8, 0x4D#8, 0x6D#8] = none ∧ decoded [0x4F#8, 0x4D#8, 0x4F#8] = none := by decide

/-! ### Part 3: the whole decode (V-D6, V-D8, V-D20, V-D32, S1) -/

theorem test_decode_leftmost_wins : decodeProgram [0x4F#8, 0x4F#8, 0x4D#8, 0x4D#8, 0x4D#8] = [.writeStdout] := by decide
theorem test_decode_stray_inside : decodeProgram [0x4F#8, 0x78#8, 0x4F#8, 0x4D#8, 0x4D#8, 0x4D#8] = [.copyOrPaste] := by decide
theorem test_decode_rescan : decodeProgram [0x6D#8, 0x6D#8, 0x6F#8, 0x6F#8] = [.endLoop] := by decide
theorem test_decode_case : decodeProgram [0x6F#8, 0x6F#8, 0x4D#8, 0x6F#8, 0x6F#8] = [.readOrWrite] := by decide
theorem test_decode_s1 :
    decodeProgram [0x4D#8, 0x6F#8, 0x4F#8, 0x20#8, 0x4D#8, 0x6F#8, 0x4F#8, 0x20#8, 0x4D#8, 0x6F#8, 0x4F#8, 0x20#8, 0x4F#8, 0x4F#8, 0x4D#8] =
      [.incrementByte, .incrementByte, .incrementByte, .writeStdout] := by decide

/-! ### Part 4: one step -/

/-- V-P4. -/
theorem test_decrementPointer_moves : (nextOf (step (vm [.decrementPointer] [] 29999))).map (fun t => (t.ptr, t.pc)) = some (29998, 1) := by decide
/-- V-P6. -/
theorem test_decrementPointer_overflows :
    (nextOf (step (vm [.decrementPointer] [] 0))).map (fun t => (t.fail, t.ptr, t.pc)) = some (some .overflow, 0, 0) := by decide
/-- V-P2. -/
theorem test_incrementPointer_moves : (nextOf (step (vm [.incrementPointer] [] 29998))).map (fun t => (t.ptr, t.pc)) = some (29999, 1) := by decide
/-- V-P3. -/
theorem test_incrementPointer_overflows :
    (nextOf (step (vm [.incrementPointer] [] 29999))).map (fun t => (t.fail, t.ptr, t.pc)) = some (some .overflow, 29999, 0) := by decide
/-- S5: the minimum decrements to the maximum. -/
theorem test_decrementByte_wraps :
    (nextOf (step (vm [.decrementByte] [(3, 0x80000000#32)] 3))).map (fun t => t.mem) = some [(3, 0x7FFFFFFF#32)] := by decide
/-- V-A2: 1 gives 0, and the cell is no longer listed. -/
theorem test_decrementByte_to_zero : (nextOf (step (vm [.decrementByte] [(0, 1#32), (1, 5#32)] 0))).map (fun t => t.mem) = some [(1, 5#32)] := by decide
/-- S5: the maximum increments to the minimum. -/
theorem test_incrementByte_wraps :
    (nextOf (step (vm [.incrementByte] [(3, 0x7FFFFFFF#32)] 3))).map (fun t => t.mem) = some [(3, 0x80000000#32)] := by decide
/-- V-A1: 255 gives 256, no 8-bit wrap. -/
theorem test_incrementByte_is_32_bits : (nextOf (step (vm [.incrementByte] [(0, 255#32)] 0))).map (fun t => t.mem) = some [(0, 256#32)] := by decide
/-- V-A4: -7 gives 0, and the Register keeps its value. -/
theorem test_setZero_leaves_the_register :
    (nextOf (step { vm [.setZero] [(0, wrap32 (-7))] 0 with reg := some 4#32 })).map (fun t => (t.mem, t.reg)) = some ([], some 4#32) := by decide
/-- V-R1: a copy of 0 occupies the Register. -/
theorem test_copyOrPaste_copies_zero :
    (nextOf (step (vm [.copyOrPaste] [] 0))).map (fun t => (t.mem, t.reg)) = some ([], some 0#32) := by decide
/-- S8: a paste over 9 of the 5 held. -/
theorem test_copyOrPaste_pastes :
    (nextOf (step { vm [.copyOrPaste] [(0, 9#32)] 0 with reg := some 5#32 })).map (fun t => (t.mem, t.reg)) = some ([(0, 5#32)], none) := by decide
/-- V-I3: the longest text, `-2147483648`. -/
theorem test_writeStdout_minimum :
    (nextOf (step (vm [.writeStdout] [(0, 0x80000000#32)] 0))).map (fun t => t.out) =
      some [0x2D#8, 0x32#8, 0x31#8, 0x34#8, 0x37#8, 0x34#8, 0x38#8, 0x33#8, 0x36#8, 0x34#8, 0x38#8] := by decide
/-- V-I1: the cell 0 is written `0`, after what was there. -/
theorem test_writeStdout_zero : (nextOf (step { vm [.writeStdout] [] 0 with out := [0x37#8] })).map (fun t => t.out) = some [0x37#8, 0x30#8] := by decide
/-- V-I14: ` +7 ` CR LF under the recommended default. -/
theorem test_readStdin_trims :
    (nextOf (step (vmIn [.readStdin] [] 0 [0x20#8, 0x2B#8, 0x37#8, 0x20#8, 0x0D#8, 0x0A#8]))).map (fun t => (t.mem, t.inPos)) =
      some ([(0, 7#32)], 6) := by decide
/-- V-I13: 2147483648 is out of range, and the line stays consumed. -/
theorem test_readStdin_out_of_range :
    (nextOf (step (vmIn [.readStdin] [(0, 9#32)] 0
      [0x32#8, 0x31#8, 0x34#8, 0x37#8, 0x34#8, 0x38#8, 0x33#8, 0x36#8, 0x34#8, 0x38#8, 0x0A#8]))).map (fun t => (t.fail, t.mem, t.inPos, t.pc)) =
      some (some .notInteger, [(0, 9#32)], 11, 0) := by decide
/-- V-I8: 0x80 is not ASCII. -/
theorem test_readOrWrite_not_ascii :
    (nextOf (step (vmIn [.readOrWrite] [] 0 [0x80#8]))).map (fun t => (t.fail, t.mem, t.inPos, t.pc)) = some (some .notAscii, [], 1, 0) := by decide
/-- V-I6: -1 is written as the byte 0xFF, and the cell is unchanged. -/
theorem test_readOrWrite_writes_low_byte :
    (nextOf (step (vm [.readOrWrite] [(0, wrap32 (-1))] 0))).map (fun t => (t.out, t.mem)) = some ([0xFF#8], [(0, wrap32 (-1))]) := by decide
/-- V-X17: one increment of `pc`, and the cell is 7. -/
theorem test_executeValue_dispatches :
    (nextOf (step (vm [.executeValue, .writeStdout] [(0, 6#32)] 0))).map (fun t => (t.mem, t.pc)) = some ([(0, 7#32)], 1) := by decide
/-- V-X6. -/
theorem test_executeValue_refuses_itself :
    (nextOf (step (vm [.executeValue] [(0, 3#32)] 0))).map (fun t => (t.phase, t.fail, t.pc)) = some (.failed, some .infiniteLoop, 0) := by decide
/-- V-L15: three opens and three closes land on index 4. -/
theorem test_beginLoop_skips_its_neighbour :
    (nextOf (step (vm [.beginLoop, .beginLoop, .beginLoop, .endLoop, .endLoop, .endLoop] [] 0))).map (fun t => t.pc) = some 5 := by decide
/-- V-L12. -/
theorem test_beginLoop_unmatched :
    (nextOf (step (vm [.beginLoop, .endLoop] [] 0))).map (fun t => (t.fail, t.pc)) = some (some .unmatchedEndLoop, 0) := by decide
/-- R158 case 7: from the EndLoop at 5 the match is the inner BeginLoop at 2. -/
theorem test_endLoop_skips_its_neighbour :
    (nextOf (step { vm [.beginLoop, .incrementByte, .beginLoop, .decrementByte, .endLoop, .endLoop] [(0, wrap32 (-1))] 0 with pc := 5 })).map
      (fun t => t.pc) = some 3 := by decide
/-- V-L13. -/
theorem test_endLoop_unmatched :
    (nextOf (step { vm [.incrementByte, .beginLoop, .endLoop] [(0, 1#32)] 0 with pc := 2 })).map (fun t => (t.fail, t.pc)) =
      some (some .unmatchedBeginLoop, 2) := by decide
/-- V-I10: stuck, under the default policy. -/
theorem test_byte_read_at_end_is_stuck : faultOf (step (vm [.readOrWrite] [] 0)) = some .stuckOnByteRead := by decide
/-- From reset with nothing supplied: the first step hands over, the second finds the empty program at its end (41 R103). -/
theorem test_reset_runs_to_done :
    (nextOf (Host.Core.run core 2 State.reset)).map (fun t => (t.phase, t.pc)) = some (.done, 0) := by decide
/-- The placed word is the very next instruction. -/
theorem test_withFetchWord_runs_next : (nextOf (step (State.reset.withFetchWord 24 0x4D6F4F))).map (fun t => (t.mem, t.pc)) = some ([(0, 1#32)], 1) := by decide

/-! ### Part 5: witnesses, named after the obligation whose hypotheses they meet -/

theorem witness_TokenMatchIsExact_no_token : ∀ i, encode i ≠ [0x4D#8, 0x4D#8, 0x6D#8] := by
  intro i; cases i <;> decide
theorem witness_TokenMatchIsExact_bytes :
    (∃ b ∈ [0x00#8, 0x6F#8, 0x6F#8], b = 0x00#8 ∨ 0x7F < b.toNat) ∧ ∃ b ∈ [0x6D#8, 0x6F#8, 0x80#8], b = 0x00#8 ∨ 0x7F < b.toNat := by decide

theorem witness_ProgramTextDecodesToTheProgram :
    (∀ x ∈ [([0x20#8, 0x0A#8], Instr.setZero), ([], Instr.endLoop)], ∀ b ∈ x.1, isAlphabetByte b = false) ∧
    ∀ b ∈ [0x2E#8], isAlphabetByte b = false := by decide

theorem witness_PlacedWordIsFetched :
    decodeTableWord 24 0x4F4F4D = some .writeStdout ∧ (vm [.setZero] [] 0).pc < (vm [.setZero] [] 0).prog.length := by decide

theorem witness_ScanFollowsTheScanningRule_short :
    (scanner [0x6D#8, 0x6F#8] 0).phase = .decode ∧ (scanner [0x6D#8, 0x6F#8] 0).par.src.length < (scanner [0x6D#8, 0x6F#8] 0).cur + 3 ∧
    [0x6D#8, 0x6F#8].length < 3 := by decide
theorem witness_ScanFollowsTheScanningRule_token :
    (scanner [0x78#8, 0x6D#8, 0x6F#8, 0x6F#8] 1).phase = .decode ∧
    (scanner [0x78#8, 0x6D#8, 0x6F#8, 0x6F#8] 1).par.src.drop (scanner [0x78#8, 0x6D#8, 0x6F#8, 0x6F#8] 1).cur = 0x6D#8 :: 0x6F#8 :: 0x6F#8 :: [] ∧
    encode .endLoop = [0x6D#8, 0x6F#8, 0x6F#8] := by decide
theorem witness_ScanFollowsTheScanningRule_no_token :
    (scanner [0x78#8, 0x6D#8, 0x6F#8] 0).par.src.drop (scanner [0x78#8, 0x6D#8, 0x6F#8] 0).cur = 0x78#8 :: 0x6D#8 :: 0x6F#8 :: [] ∧
    ∀ i, encode i ≠ [0x78#8, 0x6D#8, 0x6F#8] := by
  refine ⟨by decide, fun i => ?_⟩
  cases i <;> decide

theorem witness_SourceWithoutTokensRunsToDone :
    (∀ (k : Nat) (i : Instr), (([0x4F#8, 0x4D#8] : List Byte).drop k).take 3 ≠ encode i) ∧
    (vm [] [] 0).phase = .run ∧ (vm [] [] 0).prog = [] ∧ (vm [] [] 0).pc = 0 := by
  refine ⟨fun k i h => ?_, by decide⟩
  have := congrArg List.length h
  simp [encode] at this
  omega

theorem witness_ScanNeverFailsAndDependsOnSourceAlone :
    (scanner [0x6D#8] 0).phase = .decode ∧ ({ scanner [0x6D#8] 0 with ptr := 7 }).phase = .decode ∧
    ({ scanner [0x6D#8] 0 with ptr := 7 }).par.src = (scanner [0x6D#8] 0).par.src ∧
    ({ scanner [0x6D#8] 0 with ptr := 7 }).cur = (scanner [0x6D#8] 0).cur ∧
    ({ scanner [0x6D#8] 0 with ptr := 7 }).prog = (scanner [0x6D#8] 0).prog := by decide

theorem witness_StepRunsTheFetchedInstruction_success :
    (vm [.setZero] [] 0).phase = .run ∧ (vm [.setZero] [] 0).prog[(vm [.setZero] [] 0).pc]? = some .setZero ∧
    (nextOf (exec .setZero (vm [.setZero] [] 0))).map (fun t => t.phase) = some .run := by decide
theorem witness_StepRunsTheFetchedInstruction_failure :
    (vm [.decrementPointer] [] 0).prog[(vm [.decrementPointer] [] 0).pc]? = some .decrementPointer ∧
    (nextOf (exec .decrementPointer (vm [.decrementPointer] [] 0))).map (fun t => t.phase) = some .failed := by decide
theorem witness_StepRunsTheFetchedInstruction_fault :
    (vm [.readOrWrite] [] 0).prog[(vm [.readOrWrite] [] 0).pc]? = some .readOrWrite ∧
    faultOf (exec .readOrWrite (vm [.readOrWrite] [] 0)) = some .stuckOnByteRead := by decide

theorem witness_RunIsDoneExactlyAtProgramEnd :
    (vm [] [] 0).phase = .run ∧ (vm [] [] 0).pc = (vm [] [] 0).prog.length ∧
    (nextOf (step (vm [] [] 0))).map (fun t => t.phase) = some .done ∧ (vm [] [] 0).phase ≠ .done := by decide

theorem witness_FinishedMachineStays :
    ((vm [] [] 0).setPhase .done).phase = .done ∧ ((vm [] [] 0).takeFailure .overflow).phase = .failed := by decide

/-- No bracket, a bracket passed by either way, and a bracket that jumps either way. -/
theorem witness_PcAfterASuccessfulStep :
    ((vm [.executeValue] [(0, 6#32)] 0).phase = .run ∧ (vm [.executeValue] [(0, 6#32)] 0).actsAs = some .incrementByte ∧
      (nextOf (step (vm [.executeValue] [(0, 6#32)] 0))).map (fun t => t.phase) = some .run) ∧
    ((vm [.beginLoop] [(0, 1#32)] 0).actsAs = some .beginLoop ∧ Tape.read (vm [.beginLoop] [(0, 1#32)] 0).mem 0 ≠ some 0#32 ∧
      (nextOf (step (vm [.beginLoop] [(0, 1#32)] 0))).map (fun t => t.phase) = some .run) ∧
    ((vm [.beginLoop, .setZero, .endLoop] [] 0).actsAs = some .beginLoop ∧
      Tape.read (vm [.beginLoop, .setZero, .endLoop] [] 0).mem 0 = some 0#32 ∧
      (nextOf (step (vm [.beginLoop, .setZero, .endLoop] [] 0))).map (fun t => t.phase) = some .run) ∧
    ((vm [.endLoop] [] 0).actsAs = some .endLoop ∧ Tape.read (vm [.endLoop] [] 0).mem 0 = some 0#32 ∧
      (nextOf (step (vm [.endLoop] [] 0))).map (fun t => t.phase) = some .run) ∧
    (({ vm [.beginLoop, .setZero, .endLoop] [(0, 1#32)] 0 with pc := 2 }).actsAs = some .endLoop ∧
      Tape.read ({ vm [.beginLoop, .setZero, .endLoop] [(0, 1#32)] 0 with pc := 2 }).mem 0 ≠ some 0#32 ∧
      (nextOf (step { vm [.beginLoop, .setZero, .endLoop] [(0, 1#32)] 0 with pc := 2 })).map (fun t => t.phase) = some .run) := by decide

theorem witness_DecrementPointerMovesOrOverflows : 0 < (vm [] [] 1).ptr ∧ (vm [] [] 0).ptr = 0 := by decide
theorem witness_IncrementPointerMovesOrOverflows : (vm [] [] 29998).ptr < 29999 ∧ (vm [] [] 29999).ptr = 29999 := by decide
theorem witness_OnlyPointerInstructionsMoveThePointer :
    ((vm [.incrementPointer] [] 29998).ptr < 30000 ∧
      (nextOf (step (vm [.incrementPointer] [] 29998))).map (fun t => t.ptr) = some 29999) ∧
    (vm [.executeValue] [(1, 1#32)] 1).ptr < 30000 ∧
      (nextOf (step (vm [.executeValue] [(1, 1#32)] 1))).map (fun t => t.ptr) = some 0 := by decide

theorem witness_IncrementByteWrapsTheCell :
    Tape.wf (vm [] [(29999, 0x7FFFFFFF#32)] 29999).mem = true ∧
    Tape.read (vm [] [(29999, 0x7FFFFFFF#32)] 29999).mem 29999 = some 0x7FFFFFFF#32 := by decide
theorem witness_DecrementByteWrapsTheCell :
    Tape.wf (vm [] [(0, 0x80000000#32)] 0).mem = true ∧ Tape.read (vm [] [(0, 0x80000000#32)] 0).mem 0 = some 0x80000000#32 := by decide
theorem witness_SetZeroClearsTheCell : Tape.wf (vm [] [(29999, 1#32)] 29999).mem = true ∧ (vm [] [(29999, 1#32)] 29999).ptr < 30000 := by decide
theorem witness_OnlyTheCurrentCellChanges :
    (nextOf (step (vm [.incrementByte] [(1, 4#32)] 0))).isSome = true ∧ (1 : Nat) ≠ (vm [.incrementByte] [(1, 4#32)] 0).ptr := by decide

theorem witness_CopyOrPasteMovesTheWholeCell :
    ((vm [] [] 0).reg = none ∧ Tape.read (vm [] [] 0).mem (vm [] [] 0).ptr = some 0#32) ∧
    ({ vm [] [] 29999 with reg := some 0x80000000#32 }).reg = some 0x80000000#32 ∧
    Tape.wf ({ vm [] [] 29999 with reg := some 0x80000000#32 }).mem = true ∧ ({ vm [] [] 29999 with reg := some 0x80000000#32 }).ptr < 30000 := by decide
theorem witness_OnlyCopyOrPasteChangesTheRegister :
    ((nextOf (step (vm [.executeValue] [(0, 9#32)] 0))).isSome = true ∧ (vm [.executeValue] [(0, 9#32)] 0).phase = .run ∧
      (vm [.executeValue] [(0, 9#32)] 0).actsAs = some .copyOrPaste) ∧
    (nextOf (step (vm [.setZero] [] 0))).isSome = true ∧ (vm [.setZero] [] 0).actsAs ≠ some .copyOrPaste := by decide

theorem witness_WriteStdoutAppendsDecimalText : Tape.read (vm [] [(0, 3#32)] 0).mem (vm [] [(0, 3#32)] 0).ptr = some 3#32 := by decide
theorem witness_DecimalTextIsCanonical_zero : (decString 0#32).head? = some 0x30#8 ∧ (0x80000000#32).toInt < 0 := by decide
theorem witness_ReadOrWriteWritesTheLowByte :
    Tape.read (vm [] [(0, 255#32)] 0).mem 0 = some 255#32 ∧ (255#32).toInt ≠ 0 ∧ 1 ≤ (255#32).toInt ∧ (255#32).toInt ≤ 255 := by decide
theorem witness_ChannelsOnlyGrowAndNeverBoth :
    (nextOf (step (vm [.writeStdout] [] 0))).isSome = true ∧
    ((nextOf (step (vm [.setZero] [] 0))).isSome = true ∧ (vm [.setZero] [] 0).actsAs ≠ some .writeStdout ∧
      (vm [.setZero] [] 0).actsAs ≠ some .readStdin ∧ (vm [.setZero] [] 0).actsAs ≠ some .readOrWrite) := by decide
theorem witness_OutputIsNeverReadBack :
    (nextOf (step (vm [.writeStdout] [] 0))).isSome = true ∧ faultOf (step (vm [.readOrWrite] [] 0)) = some .stuckOnByteRead := by decide

theorem witness_LineEndsAtTheFirstLineFeed :
    (∀ b ∈ ([0x34#8, 0x32#8] : List Byte), b ≠ 0x0A#8) ∧ (vmIn [] [] 0 [0x0A#8]).inPos < (vmIn [] [] 0 [0x0A#8]).par.input.length := by decide
theorem witness_ParseLineHasItsRequiredProperties : ∀ b ∈ ([0x2D#8, 0x0A#8] : List Byte), ¬ (0x30 ≤ b.toNat ∧ b.toNat ≤ 0x39) := by decide
/-- The binding itself, with its free value as it is, is an admitted PARSE_LINE on the lines P1 and P2 speak of; here on one of each. -/
theorem witness_AnyAdmittedBindingIsGeneral :
    parseLine .anyAdmitted (decString 42#32) = some 42#32 ∧ parseLine .anyAdmitted (decString 42#32 ++ [0x0A#8]) = some 42#32 ∧
    parseLine .anyAdmitted [] = none := ⟨rfl, rfl, rfl⟩
theorem witness_ReadStdinStoresTheParsedLine :
    Tape.wf (vmIn [] [(29999, 1#32)] 29999 [0x37#8]).mem = true ∧ (vmIn [] [(29999, 1#32)] 29999 [0x37#8]).ptr < 30000 ∧
    (vmIn [] [(29999, 1#32)] 29999 [0x37#8]).inPos < (vmIn [] [(29999, 1#32)] 29999 [0x37#8]).par.input.length ∧
    parseLine (vmIn [] [(29999, 1#32)] 29999 [0x37#8]).par.parse
      (firstLine ((vmIn [] [(29999, 1#32)] 29999 [0x37#8]).par.input.drop (vmIn [] [(29999, 1#32)] 29999 [0x37#8]).inPos)) = some 7#32 := by decide
theorem witness_ReadStdinRejectsAnUnparsableLine :
    (vmIn [] [] 0 [0x0A#8]).inPos < (vmIn [] [] 0 [0x0A#8]).par.input.length ∧
    parseLine (vmIn [] [] 0 [0x0A#8]).par.parse (firstLine ((vmIn [] [] 0 [0x0A#8]).par.input.drop (vmIn [] [] 0 [0x0A#8]).inPos)) = none := by decide
theorem witness_ReadStdinReadsBackDecimalText :
    Tape.wf (vmIn [] [] 0 [0x2D#8, 0x31#8, 0x0A#8, 0x41#8]).mem = true ∧ (vmIn [] [] 0 [0x2D#8, 0x31#8, 0x0A#8, 0x41#8]).ptr < 30000 ∧
    (vmIn [] [] 0 [0x2D#8, 0x31#8, 0x0A#8, 0x41#8]).par.input.drop (vmIn [] [] 0 [0x2D#8, 0x31#8, 0x0A#8, 0x41#8]).inPos =
      decString (wrap32 (-1)) ++ 0x0A#8 :: [0x41#8] := by decide
theorem witness_ReadOrWriteReadsAnAsciiByte :
    Tape.wf (vmIn [] [] 0 [0x7F#8]).mem = true ∧ Tape.read (vmIn [] [] 0 [0x7F#8]).mem (vmIn [] [] 0 [0x7F#8]).ptr = some 0#32 ∧
    (vmIn [] [] 0 [0x7F#8]).par.input[(vmIn [] [] 0 [0x7F#8]).inPos]? = some 0x7F#8 ∧ (0x7F#8).toNat ≤ 0x7F := by decide
theorem witness_ReadOrWriteRejectsANonAsciiByte :
    Tape.read (vmIn [] [] 0 [0x80#8]).mem (vmIn [] [] 0 [0x80#8]).ptr = some 0#32 ∧
    (vmIn [] [] 0 [0x80#8]).par.input[(vmIn [] [] 0 [0x80#8]).inPos]? = some 0x80#8 ∧ 0x7F < (0x80#8).toNat := by decide
/-- The default policies, and the other two. -/
theorem witness_ReadsAtEndOfInputFollowThePolicies :
    ((vm [] [] 0).inPos = (vm [] [] 0).par.input.length ∧ Tape.read (vm [] [] 0).mem (vm [] [] 0).ptr = some 0#32 ∧
      (vm [] [] 0).par.eofByte = .stuck ∧ (vm [] [] 0).par.eofLine = .emptyLine) ∧
    ({ vm [] [] 0 with par := { Params.unsupplied with eofByte := .failNotAscii, eofLine := .stuck } }).inPos =
      ({ vm [] [] 0 with par := { Params.unsupplied with eofByte := .failNotAscii, eofLine := .stuck } }).par.input.length ∧
    ({ vm [] [] 0 with par := { Params.unsupplied with eofByte := .failNotAscii, eofLine := .stuck } }).par.eofByte = .failNotAscii ∧
    ({ vm [] [] 0 with par := { Params.unsupplied with eofByte := .failNotAscii, eofLine := .stuck } }).par.eofLine = .stuck := by decide

theorem witness_ExecuteValueChecksBeforeAnyEffect :
    (Tape.read (vm [] [(0, wrap32 (-1))] 0).mem 0 = some (wrap32 (-1)) ∧ (wrap32 (-1)).toInt < 0) ∧
    (Tape.read (vm [] [(0, 12#32)] 0).mem 0 = some 12#32 ∧ 11 < (12#32).toInt) ∧
    Tape.read (vm [] [(0, 3#32)] 0).mem 0 = some 3#32 ∧ (3#32).toInt = code .executeValue := by decide
/-- A dispatched line read that is stuck. -/
theorem witness_ExecuteValueDispatchesTheNamedInstruction_stuck :
    faultOf (step { vm [.executeValue] [(0, 11#32)] 0 with par := { Params.unsupplied with eofLine := .stuck } }) = some .stuckOnLineRead := by
  decide
theorem witness_ExecuteValueDispatchesTheNamedInstruction_itself :
    Tape.read (vm [] [(29999, 3#32)] 29999).mem 29999 = some 3#32 ∧ (3#32).toInt = code .executeValue := by decide
theorem witness_ExecuteValueDispatchesTheNamedInstruction :
    Tape.read (vm [.executeValue] [(0, 11#32)] 0).mem 0 = some 11#32 ∧ (11#32).toInt = code .readStdin ∧ Instr.readStdin ≠ .executeValue ∧
    (vm [.executeValue] [(0, 11#32)] 0).phase = .run ∧ (vm [.executeValue] [(0, 11#32)] 0).prog[0]? = some .executeValue ∧
    (nextOf (step (vm [.executeValue] [(0, 11#32)] 0))).isSome = true := by decide
/-- Each code on a cell that holds it, at the ends of the tape where the code moves the pointer. -/
theorem witness_ExecuteValueOutcomesByCode_cells :
    ∀ v ∈ [4#32, 5#32, 6#32, 7#32, 8#32, 9#32, 10#32, 11#32],
      Tape.wf (vm [] [(0, v)] 0).mem = true ∧ Tape.read (vm [] [(0, v)] 0).mem (vm [] [(0, v)] 0).ptr = some v := by
  simp only [List.forall_mem_cons, List.not_mem_nil, false_imp_iff, implies_true, and_true]
  refine ⟨?_, ?_, ?_, ?_, ?_, ?_, ?_, ?_⟩ <;> decide
theorem witness_ExecuteValueOutcomesByCode_firstCells :
    (Tape.wf (vm [] [] 0).mem = true ∧ Tape.read (vm [] [] 0).mem 0 = some 0#32) ∧
    (Tape.wf (vm [] [(1, 1#32)] 1).mem = true ∧ Tape.read (vm [] [(1, 1#32)] 1).mem 1 = some 1#32 ∧ 0 < (vm [] [(1, 1#32)] 1).ptr) := by decide
theorem witness_ExecuteValueOutcomesByCode_lastMove :
    Tape.wf (vm [] [(29998, 2#32)] 29998).mem = true ∧ Tape.read (vm [] [(29998, 2#32)] 29998).mem 29998 = some 2#32 ∧
    (2#32).toInt = 2 ∧ (vm [] [(29998, 2#32)] 29998).ptr < 29999 := by decide
theorem witness_ExecuteValueOutcomesByCode_register :
    (vm [] [(0, 9#32)] 0).reg = none ∧ ({ vm [] [(0, 9#32)] 0 with reg := some 5#32 }).reg = some 5#32 := by decide
theorem witness_ExecuteValueOutcomesByCode_line :
    (vmIn [] [(0, 11#32)] 0 [0x2D#8, 0x35#8, 0x0A#8]).inPos < (vmIn [] [(0, 11#32)] 0 [0x2D#8, 0x35#8, 0x0A#8]).par.input.length ∧
    parseLine (vmIn [] [(0, 11#32)] 0 [0x2D#8, 0x35#8, 0x0A#8]).par.parse
      (firstLine ((vmIn [] [(0, 11#32)] 0 [0x2D#8, 0x35#8, 0x0A#8]).par.input.drop 0)) = some (wrap32 (-5)) := by decide

theorem witness_BeginLoopJumpsToItsForwardMatch_cells :
    Tape.read (vm [] [(0, wrap32 (-1))] 0).mem 0 = some (wrap32 (-1)) ∧ (wrap32 (-1)).toInt ≠ 0 ∧ Tape.read (vm [] [] 0).mem 0 = some 0#32 ∧
    (0#32).toInt = 0 := by decide
/-- The nearest index a search can find, origin + 2, and a program too short for any match (R158 cases 3 and 8). -/
theorem witness_BeginLoopJumpsToItsForwardMatch_matches :
    IsForwardMatch [.beginLoop, .setZero, .endLoop] 0 2 ∧ ¬ ∃ k, IsForwardMatch [.beginLoop, .endLoop] 0 k := by
  refine ⟨⟨by decide, by decide, by decide, fun j h1 h2 => by omega⟩, ?_⟩
  rintro ⟨k, h1, h2, -⟩
  simp at h2
  omega
theorem witness_EndLoopJumpsToItsBackwardMatch_cells :
    Tape.read (vm [] [] 0).mem 0 = some 0#32 ∧ (0#32).toInt = 0 ∧ Tape.read (vm [] [(0, wrap32 (-1))] 0).mem 0 = some (wrap32 (-1)) ∧
    (wrap32 (-1)).toInt ≠ 0 := by decide
/-- The nearest index a search can find, origin - 2, and an origin with nothing two before it (R158 cases 3 and 9). -/
theorem witness_EndLoopJumpsToItsBackwardMatch_matches :
    IsBackwardMatch [.beginLoop, .setZero, .endLoop] 2 0 ∧ ¬ ∃ k, IsBackwardMatch [.beginLoop, .endLoop] 1 k := by
  refine ⟨⟨by decide, by decide, by decide, fun j h1 h2 => by omega⟩, ?_⟩
  rintro ⟨k, h1, -⟩
  omega
/-- V-L5 and V-L7: the searches answer at an inner bracket. -/
theorem witness_searches_answer :
    findFwd [.beginLoop, .beginLoop, .beginLoop, .endLoop, .endLoop, .endLoop] 0 = some 4 ∧
    findBwd [.beginLoop, .setZero, .beginLoop, .setZero, .endLoop, .endLoop] 5 = some 2 := by decide
theorem witness_SearchSkipsTheNeighbour : 1 ≤ 1 ∧ findBwd [.beginLoop, .endLoop] 1 = none := by decide
theorem witness_JumpPassesTheMatchedBracket :
    ((vm [.beginLoop, .setZero, .endLoop] [] 0).phase = .run ∧ Tape.read (vm [.beginLoop, .setZero, .endLoop] [] 0).mem 0 = some 0#32 ∧
      (vm [.beginLoop, .setZero, .endLoop] [] 0).prog[0]? = some .beginLoop ∧ (0#32).toInt = 0 ∧
      findFwd (vm [.beginLoop, .setZero, .endLoop] [] 0).prog 0 = some 2) ∧
    ({ vm [.beginLoop, .setZero, .endLoop] [(0, 1#32)] 0 with pc := 2 }).phase = .run ∧
    Tape.read ({ vm [.beginLoop, .setZero, .endLoop] [(0, 1#32)] 0 with pc := 2 }).mem 0 = some 1#32 ∧
    ({ vm [.beginLoop, .setZero, .endLoop] [(0, 1#32)] 0 with pc := 2 }).prog[2]? = some .endLoop ∧ (1#32).toInt ≠ 0 ∧
    findBwd ({ vm [.beginLoop, .setZero, .endLoop] [(0, 1#32)] 0 with pc := 2 }).prog 2 = some 0 := by decide

/-- A failure that consumes nothing, and one that keeps a byte consumed. -/
theorem witness_FailureIsPreciseAndFinal :
    ((vm [.decrementPointer] [] 0).phase = .run ∧ (nextOf (step (vm [.decrementPointer] [] 0))).map (fun t => t.phase) = some .failed) ∧
    (vmIn [.readOrWrite] [] 0 [0x80#8]).phase = .run ∧
    (nextOf (step (vmIn [.readOrWrite] [] 0 [0x80#8]))).map (fun t => (t.phase, t.inPos)) = some (.failed, 1) := by decide

/-- A running machine with the invariant, at the last cell and at the program's end. -/
theorem witness_inv_at_the_edges : (vm [] [(29999, 1#32)] 29999).Inv :=
  ⟨by decide, by decide, by decide, by decide, by decide, by decide, by decide⟩
theorem witness_FailureCausesAreExactlyTheTable :
    (vm [.decrementPointer] [] 0).Inv ∧ (vm [.decrementPointer] [] 0).phase = .run ∧
    failureCause (vm [.decrementPointer] [] 0) .decrementPointer .overflow :=
  ⟨⟨by decide, by decide, by decide, by decide, by decide, by decide, by decide⟩, rfl, rfl⟩
theorem witness_StatusNumbersTheFailures :
    (vm [] [] 0).fail = none ∧
    ∀ k ∈ [Failure.overflow, .invalidCode, .infiniteLoop, .notAscii, .notInteger, .unmatchedBeginLoop, .unmatchedEndLoop],
      ((vm [] [] 0).takeFailure k).fail = some k := by decide
theorem witness_EveryStepKeepsTheInvariant :
    (vm [] [(29999, 1#32)] 29999).Inv ∧ (nextOf (step (vm [] [(29999, 1#32)] 29999))).isSome = true :=
  ⟨witness_inv_at_the_edges, by decide⟩
/-- The decoder part way: one instruction decoded, one byte and a token to go; and a machine that runs the decode of its source. -/
theorem witness_EveryStepKeepsTheDecode :
    ({ scanner [0x4F#8, 0x4F#8, 0x4F#8, 0x20#8, 0x6D#8, 0x6F#8, 0x6F#8] 3 with prog := [.setZero] }).Decoded ∧
    ({ scanner [0x4F#8, 0x4F#8, 0x4F#8] 3 with prog := [.setZero], phase := .run }).Decoded := by
  refine ⟨⟨fun _ => ⟨rfl, by decide, by decide⟩, fun h => absurd rfl h⟩, ⟨fun h => ?_, fun _ => by decide⟩⟩
  cases h
/-- A decoder with the least PROG_MAX it admits, and a store that is full after the next scan action. -/
theorem witness_ProgramFitsItsStore :
    (State.resetWith { Params.unsupplied with src := [0x4F#8, 0x4F#8, 0x4F#8], progMax := 1 }).Decoded ∧
    (State.resetWith { Params.unsupplied with src := [0x4F#8, 0x4F#8, 0x4F#8], progMax := 1 }).par.admitted = true ∧
    (nextOf (step (State.resetWith { Params.unsupplied with src := [0x4F#8, 0x4F#8, 0x4F#8], progMax := 1 }))).map
      (fun t => t.prog.length) = some 1 :=
  ⟨⟨fun _ => ⟨rfl, by decide, by decide⟩, fun h => absurd rfl h⟩, by decide, by decide⟩
theorem witness_ProgramIsReadOnlyAfterTheDecode :
    (nextOf (step (vm [.setZero] [] 0))).isSome = true ∧ (vm [.setZero] [] 0).phase ≠ .decode := by decide
theorem witness_SourceIsDeadAfterTheDecode :
    (vm [.readOrWrite] [] 0).phase ≠ .decode ∧ faultOf (step (vm [.readOrWrite] [] 0)) = some .stuckOnByteRead ∧
    (nextOf (step (vm [.setZero] [] 0))).isSome = true := by decide
/-- All three cases happen from states with the invariant. -/
theorem witness_StepIsEnabledUnlessInputIsExhausted :
    (vm [.readOrWrite] [] 0).Inv ∧ faultOf (step (vm [.readOrWrite] [] 0)) = some .stuckOnByteRead ∧
    ({ vm [.readStdin] [] 0 with par := { Params.unsupplied with eofLine := .stuck } }).Inv ∧
    faultOf (step { vm [.readStdin] [] 0 with par := { Params.unsupplied with eofLine := .stuck } }) = some .stuckOnLineRead ∧
    (vm [.setZero] [] 0).Inv ∧ (nextOf (step (vm [.setZero] [] 0))).isSome = true :=
  ⟨⟨by decide, by decide, by decide, by decide, by decide, by decide, by decide⟩, by decide,
   ⟨by decide, by decide, by decide, by decide, by decide, by decide, by decide⟩, by decide,
   ⟨by decide, by decide, by decide, by decide, by decide, by decide, by decide⟩, by decide⟩

end Sys2Proof.Machine.Tests
end

section
/-! SUPPORT. Tokens and codes of every instruction, from the lemmas per instruction, and what the whole decode makes of a token at the head of a source. -/

namespace Sys2Proof

theorem decode_encode_append (i : Instr) (rest : List Byte) : decode (encode i ++ rest) = .ok (i, rest) := by
  have hi : Laws.TokenRoundTrip.Statement i := by
    open Laws.TokenRoundTrip in
    cases i
    exacts [endLoop, decrementPointer, incrementPointer, executeValue, readOrWrite, decrementByte, incrementByte,
      beginLoop, setZero, copyOrPaste, writeStdout, readStdin]
  exact hi rfl rest

theorem instrOfCode_code (i : Instr) : instrOfCode (code i) = some i := by
  have hi : Laws.CodeRoundTrip.Statement i := by
    open Laws.CodeRoundTrip in
    cases i
    exacts [endLoop, decrementPointer, incrementPointer, executeValue, readOrWrite, decrementByte, incrementByte,
      beginLoop, setZero, copyOrPaste, writeStdout, readStdin]
  exact hi.1

theorem code_le_eleven (i : Instr) : code i ≤ 11 := by
  cases i <;> decide

/-- The whole decode reads what the token decoder reads, and goes on after it (40 R82). -/
theorem decodeProgram_of_decode {l rest : List Byte} {i : Instr} (h : decode l = .ok (i, rest)) :
    decodeProgram l = i :: decodeProgram rest := by
  rcases decode_cases l with ⟨-, hd⟩ | ⟨b0, b1, b2, l', rfl, ⟨-, hd⟩ | ⟨j, hj, hd⟩⟩ <;> rw [hd] at h <;> cases h
  exact decodeProgram_of_token _ hj

theorem decodeProgram_encode (i : Instr) : decodeProgram (encode i) = [i] :=
  decodeProgram_of_decode (decode_encode_append i [])

end Sys2Proof
end

section
/-! SUPPORT. The program put in place of another. Only a taken bracket reads `prog` during `Exec` (spec/47_loops.md R150, R151), so every other execution
commutes with the replacement. -/

namespace Sys2Proof.Machine

/-- `s` with `p` as its program, all else as it was. -/
@[simps] def State.setProg (s : State) (p : List Instr) : State := { s with prog := p }

/-- What a meaning answers, with `p` as the program of the next state, if it answers one. -/
def replaceProg (p : List Instr) : Result → Result
  | .next t => .next (t.setProg p)
  | .fault r => .fault r
  | .refused r => .refused r

@[simp] theorem replaceProg_next (p : List Instr) (t : State) : replaceProg p (.next t) = .next (t.setProg p) := rfl
@[simp] theorem replaceProg_fault (p : List Instr) (r : Fault) : replaceProg p (.fault r) = .fault r := rfl
@[simp] theorem replaceProg_refused (p : List Instr) (r : Refusal) : replaceProg p (.refused r) = .refused r := rfl

/-! ### The updates of other elements (10 R30) -/

@[simp] theorem State.setMem_setProg (s : State) (p : List Instr) (m : Tape) : (s.setProg p).setMem m = (s.setMem m).setProg p := rfl
@[simp] theorem State.setPtr_setProg (s : State) (p : List Instr) (a : Nat) : (s.setProg p).setPtr a = (s.setPtr a).setProg p := rfl
@[simp] theorem State.setPc_setProg (s : State) (p : List Instr) (n : Nat) : (s.setProg p).setPc n = (s.setPc n).setProg p := rfl
@[simp] theorem State.setReg_setProg (s : State) (p : List Instr) (r : Option CellVal) :
    (s.setProg p).setReg r = (s.setReg r).setProg p := rfl
@[simp] theorem State.setInPos_setProg (s : State) (p : List Instr) (n : Nat) :
    (s.setProg p).setInPos n = (s.setInPos n).setProg p := rfl
@[simp] theorem State.output_setProg (s : State) (p : List Instr) (bs : List Byte) :
    (s.setProg p).output bs = (s.output bs).setProg p := rfl
@[simp] theorem State.takeFailure_setProg (s : State) (p : List Instr) (k : Failure) :
    (s.setProg p).takeFailure k = (s.takeFailure k).setProg p := rfl

theorem State.postIncrement_setProg (s : State) (p : List Instr) : (s.setProg p).postIncrement = s.postIncrement.setProg p := by
  by_cases hf : s.phase = .failed <;> simp [State.postIncrement, hf]

theorem finishStep_replaceProg (p : List Instr) (r : Result) : finishStep (replaceProg p r) = replaceProg p (finishStep r) := by
  cases r with
  | next t => simp [State.postIncrement_setProg]
  | fault r => rfl
  | refused r => rfl

/-! ### The shared operations -/

theorem withCurrentCell_setProg {s : State} {p : List Instr} {k k' : CellVal → Result} (h : ∀ v, k' v = replaceProg p (k v)) :
    withCurrentCell (s.setProg p) k' = replaceProg p (withCurrentCell s k) := by
  cases hv : Tape.read s.mem s.ptr <;> simp [withCurrentCell, hv, h]

@[simp] theorem storeCurrentCell_setProg (v : CellVal) (s : State) (p : List Instr) :
    storeCurrentCell v (s.setProg p) = replaceProg p (storeCurrentCell v s) := by
  cases hm : Tape.write s.mem s.ptr v <;> simp [storeCurrentCell, hm]

@[simp] theorem storeParsedLine_setProg (line : List Byte) (s : State) (p : List Instr) :
    storeParsedLine line (s.setProg p) = replaceProg p (storeParsedLine line s) := by
  cases hl : parseLine s.par.parse line <;> simp [storeParsedLine, hl]

theorem readPath_setProg (s : State) (p : List Instr) : readPath (s.setProg p) = replaceProg p (readPath s) := by
  cases hb : s.par.input[s.inPos]? with
  | none => cases he : s.par.eofByte <;> simp [readPath, takeByte, hb, he]
  | some b => by_cases ha : isAscii b = true <;> simp [readPath, takeByte, hb, ha]

/-! ### The instructions -/

theorem exec_endLoop_of_zero {s : State} (h : Tape.read s.mem s.ptr = some 0#32) : exec .endLoop s = .next s := by
  simp [exec, execEndLoop, withCurrentCell_of_read _ h, (isZeroCell_iff _).2 rfl]

theorem exec_beginLoop_of_ne_zero {s : State} {v : CellVal} (h : Tape.read s.mem s.ptr = some v) (hv : v ≠ 0#32) :
    exec .beginLoop s = .next s := by
  simp [exec, execBeginLoop, withCurrentCell_of_read _ h, isZeroCell_iff, hv]

/-- On a cell that holds an instruction's own code the program is not read: a bracket's code is just the value on which it does not search. -/
theorem exec_setProg_of_own_code {s : State} {v : CellVal} {i : Instr} (p : List Instr) (hv : Tape.read s.mem s.ptr = some v)
    (hc : v.toInt = code i) (hi : i ≠ .executeValue) : exec i (s.setProg p) = replaceProg p (exec i s) := by
  cases i with
  | executeValue => exact absurd rfl hi
  | endLoop =>
    obtain rfl : v = 0#32 := BitVec.toInt_inj.1 hc
    rw [exec_endLoop_of_zero hv, exec_endLoop_of_zero (s := s.setProg p) hv]
    rfl
  | beginLoop =>
    have h0 : v ≠ 0#32 := by
      rintro rfl
      exact absurd hc (by decide)
    rw [exec_beginLoop_of_ne_zero hv h0, exec_beginLoop_of_ne_zero (s := s.setProg p) hv h0]
    rfl
  | decrementPointer =>
    by_cases h : s.ptr = 0 <;> simp [exec, execDecrementPointer, atTapeStart, h]
  | incrementPointer =>
    by_cases h : tapeLen ≤ s.ptr + 1 <;> simp [exec, execIncrementPointer, atTapeEnd, h]
  | readOrWrite =>
    refine withCurrentCell_setProg fun w => ?_
    by_cases hw : isZeroCell w = true <;> simp [hw, readPath_setProg]
  | decrementByte => exact withCurrentCell_setProg fun w => storeCurrentCell_setProg _ s p
  | incrementByte => exact withCurrentCell_setProg fun w => storeCurrentCell_setProg _ s p
  | setZero => exact storeCurrentCell_setProg _ s p
  | copyOrPaste =>
    cases hr : s.reg with
    | none =>
      simp only [exec, execCopyOrPaste, State.setProg_reg, hr]
      exact withCurrentCell_setProg fun w => rfl
    | some w => simp [exec, execCopyOrPaste, hr]
  | writeStdout => exact withCurrentCell_setProg fun w => rfl
  | readStdin =>
    cases hl : s.par.input.drop s.inPos with
    | nil => cases he : s.par.eofLine <;> simp [exec, execReadStdin, takeLine, hl, he]
    | cons b rest => simp [exec, execReadStdin, takeLine, hl]

end Sys2Proof.Machine
end

section
/-! O39: ExecuteValue acts as the instruction whose code the current cell holds (spec/30_encoding.md R71; spec/46_execute_value.md R140, R142). -/

namespace Sys2Proof.Machine

theorem exec_executeValue_of_code {s : State} {v : CellVal} {i : Instr} (hv : Tape.read s.mem s.ptr = some v)
    (hc : v.toInt = code i) : exec .executeValue s = dispatchCode i s := by
  have hvalid : isInvalidCode v = false := by
    have := code_le_eleven i
    simp only [isInvalidCode, hc, Bool.or_eq_false_iff, decide_eq_false_iff_not]
    omega
  simp [exec, execExecuteValue, withCurrentCell_of_read _ hv, hvalid, hc, instrOfCode_code]

theorem dispatchCode_of_ne {i : Instr} (s : State) (hi : i ≠ .executeValue) : dispatchCode i s = exec i s := by
  cases i with
  | executeValue => exact absurd rfl hi
  | _ => rfl

/-- The whole step on ExecuteValue is the step on the instruction the cell names, put in its place, the program itself apart. -/
theorem step_set_dispatched {s : State} {v : CellVal} {i : Instr} (hv : Tape.read s.mem s.ptr = some v) (hc : v.toInt = code i)
    (hi : i ≠ .executeValue) (hrun : s.phase = .run) (hf : s.prog[s.pc]? = some .executeValue) :
    step (s.setProg (s.prog.set s.pc i)) = replaceProg (s.prog.set s.pc i) (step s) := by
  have hlt : s.pc < s.prog.length := (List.getElem?_eq_some_iff.1 hf).1
  have hf' : (s.setProg (s.prog.set s.pc i)).prog[(s.setProg (s.prog.set s.pc i)).pc]? = some i := by
    simp [hlt]
  calc step (s.setProg (s.prog.set s.pc i))
      = finishStep (exec i (s.setProg (s.prog.set s.pc i))) := step_of_fetch hrun hf'
    _ = replaceProg (s.prog.set s.pc i) (finishStep (exec i s)) := by
        rw [exec_setProg_of_own_code _ hv hc hi, finishStep_replaceProg]
    _ = replaceProg (s.prog.set s.pc i) (step s) := by
        rw [step_of_fetch hrun hf, exec_executeValue_of_code hv hc, dispatchCode_of_ne s hi]

/-- Settles O39: the dispatch is the instruction's own meaning, and on a cell that holds its own code no instruction but ExecuteValue reads the program. -/
theorem executeValueDispatchesTheNamedInstruction : Obligations.ExecuteValueDispatchesTheNamedInstruction := by
  refine ⟨decodeProgram_encode, fun s v i hv hc => ⟨?_, fun hi => ⟨?_, fun hrun hf => ?_⟩⟩⟩
  · rintro rfl
    exact exec_executeValue_of_code hv hc
  · rw [exec_executeValue_of_code hv hc, dispatchCode_of_ne s hi]
  · have hstep : step { s with prog := s.prog.set s.pc i } = replaceProg (s.prog.set s.pc i) (step s) :=
      step_set_dispatched hv hc hi hrun hf
    refine ⟨fun t ht => ?_, fun r hr => ?_, fun r hr => ?_⟩
    · rw [hstep, ht]
      rfl
    · rw [hstep, hr]
      rfl
    · rw [hstep, hr]
      rfl

end Sys2Proof.Machine
end

section
/-! O3: the token table read backwards (spec/30_encoding.md R60, R63; spec/40_decoder.md R84). -/

namespace Sys2Proof

/-- The token decoder answers an instruction on a triple exactly when the table's search does. -/
theorem decode_triple_eq_ok_iff {b0 b1 b2 : Byte} {rest : List Byte} {i : Instr} :
    decode (b0 :: b1 :: b2 :: rest) = .ok (i, rest) ↔ instrOfToken b0 b1 b2 = some i := by
  refine ⟨fun hd => ?_, decode_of_token rest⟩
  cases hj : instrOfToken b0 b1 b2 with
  | none => rw [decode_of_no_token rest hj] at hd; cases hd
  | some j => rw [decode_of_token rest hj] at hd; cases hd; rfl

/-- The triple an instruction is found by is its token. -/
theorem encode_of_instrOfToken {b0 b1 b2 : Byte} {i : Instr} (h : instrOfToken b0 b1 b2 = some i) : encode i = [b0, b1, b2] := by
  have htoken : tokenBytes i = (b0, b1, b2) := of_decide_eq_true (List.find?_some h :)
  simp only [tokenBytes, Prod.mk.injEq] at htoken
  obtain ⟨rfl, rfl, rfl⟩ := htoken
  rfl

/-- 40 R84: a triple names the instruction whose token it is, and no other. -/
theorem instrOfToken_eq_some_iff {b0 b1 b2 : Byte} {i : Instr} : instrOfToken b0 b1 b2 = some i ↔ encode i = [b0, b1, b2] := by
  refine ⟨encode_of_instrOfToken, fun h => ?_⟩
  have hd : decode [b0, b1, b2] = .ok (i, []) := h ▸ decode_encode_append i []
  exact decode_triple_eq_ok_iff.1 hd

theorem instrOfToken_eq_none_iff {b0 b1 b2 : Byte} : instrOfToken b0 b1 b2 = none ↔ ∀ i, encode i ≠ [b0, b1, b2] := by
  simp only [Option.eq_none_iff_forall_ne_some, ne_eq, instrOfToken_eq_some_iff]

/-- No letter is 0x00 or above 0x7F (30 R62). -/
theorem letterByte_ne_zero_and_le (l : Letter) : letterByte l ≠ 0x00#8 ∧ (letterByte l).toNat ≤ 0x7F := by
  cases l <;> decide

theorem mem_encode_ne_zero_and_le {i : Instr} {b : Byte} (h : b ∈ encode i) : b ≠ 0x00#8 ∧ b.toNat ≤ 0x7F := by
  simp only [encode, List.mem_cons, List.not_mem_nil, or_false] at h
  obtain rfl | rfl | rfl := h <;> exact letterByte_ne_zero_and_le _

/-- Settles O3: the search of the table answers the instruction whose token the triple is, and every byte of a token is an ASCII letter. -/
theorem tokenMatchIsExact : Obligations.TokenMatchIsExact := by
  intro b0 b1 b2 rest
  have hnone (hne : ∀ i, encode i ≠ [b0, b1, b2]) : decode (b0 :: b1 :: b2 :: rest) = .error .notAToken :=
    decode_of_no_token rest (instrOfToken_eq_none_iff.2 hne)
  refine ⟨fun i => decode_triple_eq_ok_iff.trans instrOfToken_eq_some_iff, hnone, ?_⟩
  rintro ⟨b, hb, hbad⟩
  refine hnone fun i henc => ?_
  obtain ⟨hne, hle⟩ := mem_encode_ne_zero_and_le (henc ▸ hb)
  exact hbad.elim hne (by omega)

end Sys2Proof
end

section
/-! O6: one scan action, by what the token decoder answers at the cursor (spec/40_decoder.md R82). -/

namespace Sys2Proof.Machine

theorem scanAction_of_ok {s : State} {i : Instr} {rest : List Byte} (h : decode (s.par.src.drop s.cur) = .ok (i, rest)) :
    scanAction s = { s with prog := s.prog ++ [i], cur := s.cur + 3 } := by
  rw [scanAction, h]
  rfl

theorem scanAction_of_notAToken {s : State} (h : decode (s.par.src.drop s.cur) = .error .notAToken) :
    scanAction s = { s with cur := s.cur + 1 } := by
  rw [scanAction, h]
  rfl

theorem scanAction_of_tooShort {s : State} (h : decode (s.par.src.drop s.cur) = .error .tooShort) :
    scanAction s = { s with phase := .run } := by
  rw [scanAction, h]
  rfl

/-- Settles O6: the scan action and the whole decode split on the same answer of the table for the triple at the cursor. -/
theorem scanFollowsTheScanningRule : Obligations.ScanFollowsTheScanningRule := by
  refine ⟨fun s hdec => ⟨fun hshort => ?_, fun b0 b1 b2 rest hdrop => ⟨fun i henc => ?_, fun hne => ?_⟩⟩,
    fun src => decodeProgram_of_short, fun b0 b1 b2 rest => ⟨fun i henc => ?_, fun hne => ?_⟩⟩
  · have hlen : (s.par.src.drop s.cur).length < 3 := by
      rw [List.length_drop]
      omega
    rw [step_of_decode hdec, scanAction_of_tooShort (decode_of_short hlen)]
  · rw [step_of_decode hdec, scanAction_of_ok (hdrop ▸ decode_of_token rest (instrOfToken_eq_some_iff.2 henc))]
  · rw [step_of_decode hdec, scanAction_of_notAToken (hdrop ▸ decode_of_no_token rest (instrOfToken_eq_none_iff.2 hne))]
  · exact decodeProgram_of_token rest (instrOfToken_eq_some_iff.2 henc)
  · exact decodeProgram_of_no_token rest (instrOfToken_eq_none_iff.2 hne)

end Sys2Proof.Machine
end

section
/-! O8: each instruction of a decode consumes three bytes that no other uses (spec/40_decoder.md R87). -/

namespace Sys2Proof

/-- The last case of the whole decode's recursion: bytes that do not begin with a triple are fewer than three. -/
theorem length_lt_three_of_no_triple {l : List Byte} (h : ∀ b0 b1 b2 rest, l = b0 :: b1 :: b2 :: rest → False) : l.length < 3 := by
  obtain ⟨hlen, -⟩ | ⟨b0, b1, b2, rest, hl, -⟩ := decode_cases l
  · exact hlen
  · exact (h b0 b1 b2 rest hl).elim

theorem three_mul_length_decodeProgram_le (src : List Byte) : 3 * (decodeProgram src).length ≤ src.length := by
  induction src using decodeProgram.induct with
  | case1 b0 b1 b2 rest i hi ih =>
    rw [decodeProgram_of_token rest hi]
    simp only [List.length_cons]
    omega
  | case2 b0 b1 b2 rest hnone ih =>
    rw [decodeProgram_of_no_token rest hnone, List.length_cons]
    omega
  | case3 src hshort => simp [decodeProgram_of_short (length_lt_three_of_no_triple hshort)]

/-- Settles O8, by the recursion of the whole decode: three bytes gone for an instruction, one for none. -/
theorem decodeLengthIsAThirdOfTheSource : Obligations.DecodeLengthIsAThirdOfTheSource := by
  intro src
  have h3 := three_mul_length_decodeProgram_le src
  omega

end Sys2Proof
end

section
/-! O9: a source in which no token stands, and the run of the decoder phase (spec/40_decoder.md R86; spec/41_vm_cycle.md R103). -/

namespace Sys2Proof

/-- 40 R86. -/
theorem decodeProgram_eq_nil_of_no_token {src : List Byte} (h : ∀ (k : Nat) (i : Instr), (src.drop k).take 3 ≠ encode i) :
    decodeProgram src = [] := by
  induction src using decodeProgram.induct with
  | case1 b0 b1 b2 rest i hi ih => exact absurd (encode_of_instrOfToken hi).symm (h 0 i)
  | case2 b0 b1 b2 rest hnone ih =>
    rw [decodeProgram_of_no_token rest hnone]
    exact ih fun k => h (k + 1)
  | case3 src hshort => simp [decodeProgram_of_short (length_lt_three_of_no_triple hshort)]

end Sys2Proof

namespace Sys2Proof.Machine

/-- A run goes on from the state its first part reaches, on any machine. -/
theorem run_add_of_next (M : Host.Core) {s t : M.State} {m : Nat} (n : Nat) (h : M.run m s = .next t) :
    M.run (m + n) s = M.run n t := by
  induction m generalizing s with
  | zero => cases h; rw [Nat.zero_add]
  | succ m ih =>
    cases hs : M.step s with
    | next u =>
      rw [run_succ_of_next M m hs] at h
      rw [Nat.succ_add, run_succ_of_next M _ hs, ih h]
    | fault r => simp [Host.Core.run, hs] at h
    | refused r => simp [Host.Core.run, hs] at h

/-- From anywhere in its phase, the decoder appends the decode of the rest of the source and hands over (40 R82, R90). -/
theorem run_scan {s : State} (hdec : s.phase = .decode) :
    ∃ n c, Host.Core.run core n s =
      .next { s with prog := s.prog ++ decodeProgram (s.par.src.drop s.cur), cur := c, phase := .run } := by
  induction hdrop : s.par.src.drop s.cur using decodeProgram.induct generalizing s with
  | case1 b0 b1 b2 rest i hi ih =>
    have hstep := step_of_decode hdec
    rw [scanAction_of_ok (hdrop ▸ decode_of_token rest hi)] at hstep
    obtain ⟨n, c, hrun⟩ := ih (s := { s with prog := s.prog ++ [i], cur := s.cur + 3 }) hdec
      (by rw [← List.drop_drop, hdrop]; rfl)
    exact ⟨n + 1, c, by rw [core_run_succ n hstep, hrun, decodeProgram_of_token rest hi, List.append_assoc]; rfl⟩
  | case2 b0 b1 b2 rest hnone ih =>
    have hstep := step_of_decode hdec
    rw [scanAction_of_notAToken (hdrop ▸ decode_of_no_token rest hnone)] at hstep
    obtain ⟨n, c, hrun⟩ := ih (s := { s with cur := s.cur + 1 }) hdec (by rw [← List.drop_drop, hdrop]; rfl)
    exact ⟨n + 1, c, by rw [core_run_succ n hstep, hrun, decodeProgram_of_no_token rest hnone]⟩
  | case3 src hshort =>
    have hlen := length_lt_three_of_no_triple hshort
    have hstep := step_of_decode hdec
    rw [scanAction_of_tooShort (hdrop ▸ decode_of_short hlen)] at hstep
    exact ⟨1, s.cur, by rw [core_run_succ 0 hstep, core_run_zero, decodeProgram_of_short hlen, List.append_nil]⟩

/-- Settles O9: the scan appends the empty decode and hands over, and the next step finds `pc` at the end of the empty program. -/
theorem sourceWithoutTokensRunsToDone : Obligations.SourceWithoutTokensRunsToDone := by
  refine ⟨fun par hno => ?_, fun src hlen k i htake => ?_, fun s hrun hprog hpc => ?_⟩
  · have hempty := decodeProgram_eq_nil_of_no_token hno
    obtain ⟨n, c, hscan⟩ := run_scan (State.resetWith_phase par)
    have hprog : (State.resetWith par).prog ++ decodeProgram (par.src.drop (State.resetWith par).cur) = [] := hempty
    rw [State.resetWith_par, hprog] at hscan
    exact ⟨hempty, n + 1, c, (run_add_of_next core 1 hscan).trans (core_run_succ 0 (step_of_end rfl rfl))⟩
  · have hthree := congrArg List.length htake
    simp only [List.length_take, List.length_drop, encode, List.length_cons, List.length_nil] at hthree
    omega
  · exact step_of_end hrun (by rw [hpc, hprog, List.length_nil])

end Sys2Proof.Machine
end

section
/-! O10: what a scan action writes (spec/40_decoder.md R89 to R91). -/

namespace Sys2Proof.Machine

/-- A scan action hands over or goes on scanning (40 R90). -/
theorem scanAction_phase {s : State} (h : s.phase = .decode) : (scanAction s).phase = .decode ∨ (scanAction s).phase = .run := by
  rcases decode_cases (s.par.src.drop s.cur) with ⟨-, hd⟩ | ⟨b0, b1, b2, rest, -, ⟨-, hd⟩ | ⟨i, -, hd⟩⟩
  · exact .inr (by rw [scanAction_of_tooShort hd])
  · exact .inl (by rw [scanAction_of_notAToken hd, h])
  · exact .inl (by rw [scanAction_of_ok hd, h])

/-- What one scanning state is given for `prog`, `cur` and `phase`, every state that agrees on the source, the cursor and the program is given too, and
nothing else (40 R91). -/
theorem scanAction_eq_of_agree {s u : State} (hs : s.phase = .decode) (hu : u.phase = .decode) (hsrc : u.par.src = s.par.src)
    (hcur : u.cur = s.cur) (hprog : u.prog = s.prog) :
    scanAction u = { u with prog := (scanAction s).prog, cur := (scanAction s).cur, phase := (scanAction s).phase } := by
  have hdrop : u.par.src.drop u.cur = s.par.src.drop s.cur := by rw [hsrc, hcur]
  rcases decode_cases (s.par.src.drop s.cur) with ⟨-, hd⟩ | ⟨b0, b1, b2, rest, -, ⟨-, hd⟩ | ⟨i, -, hd⟩⟩
  · rw [scanAction_of_tooShort hd, scanAction_of_tooShort (hdrop ▸ hd), ← hprog, ← hcur]
  · rw [scanAction_of_notAToken hd, scanAction_of_notAToken (hdrop ▸ hd), ← hprog, ← hcur, hs, ← hu]
  · rw [scanAction_of_ok hd, scanAction_of_ok (hdrop ▸ hd), ← hprog, ← hcur, hs, ← hu]

/-- Settles O10: the three values are those of the scan action itself. -/
theorem scanNeverFailsAndDependsOnSourceAlone : Obligations.ScanNeverFailsAndDependsOnSourceAlone := by
  intro s hs
  refine ⟨(scanAction s).prog, (scanAction s).cur, (scanAction s).phase, scanAction_phase hs, ?_, fun u hu hsrc hcur hprog => ?_⟩
  · rw [step_of_decode hs, ← scanAction_eq_of_agree hs hs rfl rfl rfl]
  · rw [step_of_decode hu, ← scanAction_eq_of_agree hs hu hsrc hcur hprog]

end Sys2Proof.Machine
end

section
/-! O11: what the step makes of the outcome of the fetched instruction (spec/41_vm_cycle.md R97, R99, R100). -/

namespace Sys2Proof.Machine

/-- Settles O11: the step finishes what the fetched instruction answers, and only an answer that has not failed takes the post-increment. -/
theorem stepRunsTheFetchedInstruction : Obligations.StepRunsTheFetchedInstruction := by
  intro s i hrun hfetch
  have hstep : step s = finishStep (exec i s) := step_of_fetch hrun hfetch
  refine ⟨fun t hexec hok => ?_, fun t hexec hfail => ?_, fun r hexec => ?_, fun r hexec => ?_⟩
  · rw [hstep, hexec, finishStep_next, State.postIncrement_of_not_failed hok, State.setPc]
  · rw [hstep, hexec, finishStep_next, State.postIncrement_of_failed hfail]
  · rw [hstep, hexec, finishStep_fault]
  · rw [hstep, hexec, finishStep_refused]

end Sys2Proof.Machine
end

section
/-! O22: CopyOrPaste by what the Register holds (spec/44_register.md R120, R122). -/

namespace Sys2Proof.Machine

/-- A copy goes on from the current cell's value and writes the Register alone (44 R120). -/
theorem exec_copyOrPaste_of_empty {s : State} (h : s.reg = none) :
    exec .copyOrPaste s = withCurrentCell s fun v => .next (s.setReg (some v)) := by
  simp [exec, execCopyOrPaste, h]

/-- A paste is a store of the held value by the state whose Register is emptied (44 R120). -/
theorem exec_copyOrPaste_of_held {s : State} {w : CellVal} (h : s.reg = some w) :
    exec .copyOrPaste s = storeCurrentCell w (s.setReg none) := by
  simp [exec, execCopyOrPaste, h]

/-- Settles O22: a copy is a read of the current cell; a paste is a store into it, whose frame is that of the store. -/
theorem copyOrPasteMovesTheWholeCell : Obligations.CopyOrPasteMovesTheWholeCell := by
  refine ⟨fun s v hempty hv => ?_, fun s w hheld hwf hptr => ?_⟩
  · rw [exec_copyOrPaste_of_empty hempty, withCurrentCell_of_read _ hv, State.setReg]
  · rw [exec_copyOrPaste_of_held hheld]
    exact storeCurrentCell_of_lt (s := s.setReg none) w hptr hwf

end Sys2Proof.Machine
end

section
/-! O38: the two checks of ExecuteValue (spec/46_execute_value.md R141). -/

namespace Sys2Proof.Machine

/-- A cell that is no code ends the step at the range check (46 R140). -/
theorem exec_executeValue_of_invalidCode {s : State} {v : CellVal} (hv : Tape.read s.mem s.ptr = some v)
    (h : v.toInt < 0 ∨ 11 < v.toInt) : exec .executeValue s = .next (s.takeFailure .invalidCode) := by
  have hinvalid : isInvalidCode v = true := by simpa [isInvalidCode] using h
  simp [exec, execExecuteValue, withCurrentCell_of_read _ hv, hinvalid]

/-- Settles O38: a cell outside 0 to 11 stops at the range check, and ExecuteValue's own code is dispatched to the InfiniteLoop failure. -/
theorem executeValueChecksBeforeAnyEffect : Obligations.ExecuteValueChecksBeforeAnyEffect := by
  intro s v hv
  refine ⟨fun h => ?_, fun h => ?_⟩
  · exact exec_executeValue_of_invalidCode hv h
  · exact exec_executeValue_of_code hv h

end Sys2Proof.Machine
end

section
/-! O43 to O45: the bracket searches find the nearest zero of the counter, and do not look at the neighbour (spec/47_loops.md R152 to R154). -/

namespace Sys2Proof.Machine

/-! The counter as a number, after a whole stretch of the program. -/

/-- The forward counter, from `c`, after every instruction of `l` (47 R152). -/
def counterForward (c : Int) (l : List Instr) : Int := c + l.count .beginLoop - l.count .endLoop

/-- The backward counter, from `c`, after every instruction of `l` (47 R153). -/
def counterBackward (c : Int) (l : List Instr) : Int := c + l.count .endLoop - l.count .beginLoop

theorem forwardCount_eq_counterForward (p : List Instr) (o j : Nat) :
    forwardCount p o j = counterForward 1 ((p.drop (o + 2)).take (j - o - 1)) := rfl

theorem backwardCount_eq_counterBackward (p : List Instr) (o j : Nat) :
    backwardCount p o j = counterBackward 1 ((p.take (o - 1)).drop j) := rfl

@[simp] theorem counterForward_nil (c : Int) : counterForward c [] = c := by simp [counterForward]

@[simp] theorem counterBackward_nil (c : Int) : counterBackward c [] = c := by simp [counterBackward]

/-- The forward scan meets the first instruction first. -/
@[simp] theorem counterForward_cons (c : Int) (x : Instr) (l : List Instr) :
    counterForward c (x :: l) = counterForward (countForward x c) l := by
  cases x <;> simp [counterForward, countForward] <;> omega

/-- The backward scan meets the last instruction first. -/
@[simp] theorem counterBackward_concat (c : Int) (l : List Instr) (x : Instr) :
    counterBackward c (l ++ [x]) = counterBackward (countBackward x c) l := by
  cases x <;> simp [counterBackward, countBackward] <;> omega

/-- A positive forward counter stays positive, or an EndLoop takes it to 0. -/
theorem countForward_pos_or_endLoop (x : Instr) {c : Int} (hc : 0 < c) :
    0 < countForward x c ∨ (countForward x c = 0 ∧ x = .endLoop) := by
  cases x <;> simp [countForward] <;> omega

/-- A positive backward counter stays positive, or a BeginLoop takes it to 0. -/
theorem countBackward_pos_or_beginLoop (x : Instr) {c : Int} (hc : 0 < c) :
    0 < countBackward x c ∨ (countBackward x c = 0 ∧ x = .beginLoop) := by
  cases x <;> simp [countBackward] <;> omega

/-! The forward search. -/

/-- The forward scan answers at the instruction that takes the counter to 0, and else scans on. -/
theorem scanForward_cons_eq_some_iff {x : Instr} {l : List Instr} {i k : Nat} {c : Int} :
    scanForward (x :: l) i c = some k ↔
      (countForward x c = 0 ∧ i = k) ∨ (countForward x c ≠ 0 ∧ scanForward l (i + 1) (countForward x c) = some k) := by
  by_cases h : countForward x c = 0 <;> simp [scanForward, h]

theorem le_of_scanForward {l : List Instr} {i k : Nat} {c : Int} (h : scanForward l i c = some k) : i ≤ k := by
  induction l generalizing i c with
  | nil => cases h
  | cons x l ih =>
    obtain ⟨-, rfl⟩ | ⟨-, hrest⟩ := scanForward_cons_eq_some_iff.1 h
    · exact le_rfl
    · exact Nat.le_of_succ_le (ih hrest)

/-- The forward scan of `l` answers the `n`-th instruction exactly when the counter is first 0 after it. -/
theorem scanForward_eq_some_add_iff {l : List Instr} {i n : Nat} {c : Int} :
    scanForward l i c = some (i + n) ↔
      n < l.length ∧ counterForward c (l.take (n + 1)) = 0 ∧ ∀ m < n, counterForward c (l.take (m + 1)) ≠ 0 := by
  induction l generalizing i n c with
  | nil => simp [scanForward]
  | cons x l ih =>
    rw [scanForward_cons_eq_some_iff]
    cases n with
    | zero =>
      have hpast : scanForward l (i + 1) (countForward x c) ≠ some i := fun h => absurd (le_of_scanForward h) (by omega)
      simp [hpast]
    | succ n =>
      have hi : i + (n + 1) = i + 1 + n := by omega
      rw [hi, ih, Nat.forall_lt_succ_left]
      simp only [List.length_cons, List.take_succ_cons, counterForward_cons, List.take_zero, counterForward_nil]
      constructor
      · rintro (⟨-, h⟩ | ⟨hx, hn, hzero, hfirst⟩)
        · omega
        · exact ⟨by omega, hzero, hx, hfirst⟩
      · rintro ⟨hn, hzero, hx, hfirst⟩
        exact .inr ⟨hx, by omega, hzero, hfirst⟩

/-- From a positive counter, only an EndLoop ends the forward scan. -/
theorem endLoop_of_scanForward {l : List Instr} {i k : Nat} {c : Int} (hc : 0 < c) (h : scanForward l i c = some k) :
    l[k - i]? = some .endLoop := by
  induction l generalizing i c with
  | nil => cases h
  | cons x l ih =>
    have hx := countForward_pos_or_endLoop x hc
    obtain ⟨hzero, rfl⟩ | ⟨hne, hrest⟩ := scanForward_cons_eq_some_iff.1 h
    · simp [(hx.resolve_left (by omega)).2]
    · have hk : k - i = k - (i + 1) + 1 := by have := le_of_scanForward hrest; omega
      rw [hk, List.getElem?_cons_succ]
      exact ih (hx.resolve_right fun hend => hne hend.1) hrest

/-- The forward search never answers an index below origin + 2 (47 R154). -/
theorem add_two_le_of_findFwd {p : List Instr} {o k : Nat} (h : findFwd p o = some k) : o + 2 ≤ k :=
  le_of_scanForward h

/-- The forward search answers the forward match: the scan's first zero, `n` instructions past origin + 2. -/
theorem findFwd_eq_some_iff {p : List Instr} {o k : Nat} : findFwd p o = some k ↔ IsForwardMatch p o k := by
  by_cases hk : o + 2 ≤ k
  · obtain ⟨n, rfl⟩ := Nat.exists_eq_add_of_le hk
    have htake (m : Nat) : o + 2 + m - o - 1 = m + 1 := by omega
    have hfirst : (∀ m < n, forwardCount p o (o + 2 + m) ≠ 0) ↔ ∀ j, o + 2 ≤ j → j < o + 2 + n → forwardCount p o j ≠ 0 := by
      refine ⟨fun h j hj hjk => ?_, fun h m hm => h _ (by omega) (by omega)⟩
      obtain ⟨m, rfl⟩ := Nat.exists_eq_add_of_le hj
      exact h m (by omega)
    rw [IsForwardMatch, ← hfirst, findFwd, scanForward_eq_some_add_iff, List.length_drop]
    simp only [forwardCount_eq_counterForward, htake]
    exact ⟨fun ⟨hn, h⟩ => ⟨hk, by omega, h⟩, fun ⟨_, hn, h⟩ => ⟨by omega, h⟩⟩
  · exact iff_of_false (fun h => hk (add_two_le_of_findFwd h)) fun h => hk h.1

theorem endLoop_of_findFwd {p : List Instr} {o k : Nat} (h : findFwd p o = some k) : p[k]? = some .endLoop := by
  have hend := endLoop_of_scanForward Int.one_pos h
  rwa [List.getElem?_drop, Nat.add_sub_cancel' (add_two_le_of_findFwd h)] at hend

/-- Settles O43: the scan's first zero is the forward match, and from a positive counter only an EndLoop makes a zero. -/
theorem forwardSearchFindsTheFirstZero : Obligations.ForwardSearchFindsTheFirstZero :=
  fun _ _ => ⟨fun _ => findFwd_eq_some_iff, fun _ => endLoop_of_findFwd⟩

/-! The backward search. -/

/-- The backward scan answers at the instruction that takes the counter to 0, and else scans on. -/
theorem scanBackward_succ_eq_some_iff {p : List Instr} {x : Instr} {i k : Nat} {c : Int} (hx : p[i]? = some x) :
    scanBackward p (i + 1) c = some k ↔
      (countBackward x c = 0 ∧ i = k) ∨ (countBackward x c ≠ 0 ∧ scanBackward p i (countBackward x c) = some k) := by
  by_cases h : countBackward x c = 0 <;> simp [scanBackward, hx, h]

/-- Past the end of the program the backward scan meets nothing. -/
theorem scanBackward_succ_of_none {p : List Instr} {i : Nat} (c : Int) (hi : p[i]? = none) :
    scanBackward p (i + 1) c = scanBackward p i c := by
  simp [scanBackward, hi]

theorem lt_of_scanBackward {p : List Instr} {n k : Nat} {c : Int} (h : scanBackward p n c = some k) : k < n := by
  induction n generalizing c with
  | zero => cases h
  | succ n ih =>
    cases hx : p[n]? with
    | none => exact Nat.lt_succ_of_lt (ih (scanBackward_succ_of_none c hx ▸ h))
    | some x =>
      obtain ⟨-, rfl⟩ | ⟨-, hrest⟩ := (scanBackward_succ_eq_some_iff hx).1 h
      · exact Nat.lt_succ_self n
      · exact Nat.lt_succ_of_lt (ih hrest)

/-- From a positive counter, only a BeginLoop ends the backward scan. -/
theorem beginLoop_of_scanBackward {p : List Instr} {n k : Nat} {c : Int} (hc : 0 < c) (h : scanBackward p n c = some k) :
    p[k]? = some .beginLoop := by
  induction n generalizing c with
  | zero => cases h
  | succ n ih =>
    cases hx : p[n]? with
    | none => exact ih hc (scanBackward_succ_of_none c hx ▸ h)
    | some x =>
      have hcount := countBackward_pos_or_beginLoop x hc
      obtain ⟨hzero, rfl⟩ | ⟨hne, hrest⟩ := (scanBackward_succ_eq_some_iff hx).1 h
      · rw [hx, (hcount.resolve_left (by omega)).2]
      · exact ih (hcount.resolve_right fun hbegin => hne hbegin.1) hrest

/-- The stretch below `n + 1` ends with the instruction at `n`. -/
theorem drop_take_succ_of_getElem? {p : List Instr} {x : Instr} {n j : Nat} (hx : p[n]? = some x) (hj : j ≤ n) :
    (p.take (n + 1)).drop j = (p.take n).drop j ++ [x] := by
  obtain ⟨hn, -⟩ := List.getElem?_eq_some_iff.1 hx
  rw [List.take_add_one, hx, List.drop_append_of_le_length (by simp; omega), Option.toList_some]

/-- The backward scan below `n` answers the last index down to which the counter is 0. -/
theorem scanBackward_eq_some_iff {p : List Instr} {n k : Nat} {c : Int} (hc : c ≠ 0) :
    scanBackward p n c = some k ↔
      k < n ∧ k < p.length ∧ counterBackward c ((p.take n).drop k) = 0 ∧
        ∀ j, k < j → j < n → counterBackward c ((p.take n).drop j) ≠ 0 := by
  induction n generalizing c with
  | zero => simp [scanBackward]
  | succ n ih =>
    cases hx : p[n]? with
    | none =>
      have hlen : p.length ≤ n := List.getElem?_eq_none_iff.1 hx
      rw [scanBackward_succ_of_none c hx, ih hc, List.take_of_length_le hlen, List.take_of_length_le (by omega)]
      constructor
      · rintro ⟨-, hkp, hzero, hlast⟩
        refine ⟨by omega, hkp, hzero, fun j hkj hj => ?_⟩
        obtain hj | rfl := Nat.lt_succ_iff_lt_or_eq.1 hj
        · exact hlast j hkj hj
        · rwa [List.drop_of_length_le hlen, counterBackward_nil]
      · rintro ⟨-, hkp, hzero, hlast⟩
        exact ⟨by omega, hkp, hzero, fun j hkj hj => hlast j hkj (by omega)⟩
    | some x =>
      have hn : n < p.length := (List.getElem?_eq_some_iff.1 hx).1
      have hcounter {j : Nat} (hj : j ≤ n) :
          counterBackward c ((p.take (n + 1)).drop j) = counterBackward (countBackward x c) ((p.take n).drop j) := by
        rw [drop_take_succ_of_getElem? hx hj, counterBackward_concat]
      have hend : counterBackward c ((p.take (n + 1)).drop n) = countBackward x c := by
        rw [hcounter le_rfl, List.drop_of_length_le (List.length_take_le n p), counterBackward_nil]
      rw [scanBackward_succ_eq_some_iff hx]
      constructor
      · rintro (⟨hzero, rfl⟩ | ⟨hne, hrest⟩)
        · exact ⟨Nat.lt_succ_self n, hn, hend.trans hzero, fun j hnj hj => by omega⟩
        · obtain ⟨hk, hkp, hzero, hlast⟩ := (ih hne).1 hrest
          refine ⟨by omega, hkp, (hcounter hk.le).trans hzero, fun j hkj hj => ?_⟩
          obtain hj | rfl := Nat.lt_succ_iff_lt_or_eq.1 hj
          · exact hcounter hj.le ▸ hlast j hkj hj
          · exact hend ▸ hne
      · rintro ⟨hk, hkp, hzero, hlast⟩
        obtain hk | rfl := Nat.lt_succ_iff_lt_or_eq.1 hk
        · have hne : countBackward x c ≠ 0 := hend ▸ hlast n hk (Nat.lt_succ_self n)
          exact .inr ⟨hne, (ih hne).2 ⟨hk, hkp, hcounter hk.le ▸ hzero, fun j hkj hj => hcounter hj.le ▸ hlast j hkj (by omega)⟩⟩
        · exact .inl ⟨hend ▸ hzero, rfl⟩

/-- The backward search answers the backward match: it scans below origin - 1. -/
theorem findBwd_eq_some_iff {p : List Instr} {o k : Nat} : findBwd p o = some k ↔ IsBackwardMatch p o k := by
  have hbelow (j : Nat) : j < o - 1 ↔ j + 2 ≤ o := by omega
  simp only [findBwd, scanBackward_eq_some_iff one_ne_zero, hbelow, IsBackwardMatch, backwardCount_eq_counterBackward]

theorem beginLoop_of_findBwd {p : List Instr} {o k : Nat} (h : findBwd p o = some k) : p[k]? = some .beginLoop :=
  beginLoop_of_scanBackward Int.one_pos h

/-- Settles O44: the scan's first zero is the backward match, and from a positive counter only a BeginLoop makes a zero. -/
theorem backwardSearchFindsTheLastZero : Obligations.BackwardSearchFindsTheLastZero :=
  fun _ _ => ⟨fun _ => findBwd_eq_some_iff, fun _ => beginLoop_of_findBwd⟩

/-! The neighbour: neither scan reads it. -/

/-- The forward search reads nothing before origin + 2. -/
theorem findFwd_set_of_lt {p : List Instr} {o a : Nat} (x : Instr) (ha : a < o + 2) : findFwd (p.set a x) o = findFwd p o := by
  rw [findFwd, List.drop_set_of_lt ha, ← findFwd]

/-- The backward scan below `n` reads nothing from `n` on. -/
theorem scanBackward_set_of_le {p : List Instr} {n a : Nat} (x : Instr) (c : Int) (ha : n ≤ a) :
    scanBackward (p.set a x) n c = scanBackward p n c := by
  induction n generalizing c with
  | zero => rfl
  | succ n ih =>
    have hsame : (p.set a x)[n]? = p[n]? := List.getElem?_set_ne (by omega)
    simp only [scanBackward, hsame, fun c => ih c (by omega)]

/-- Settles O45: the forward scan starts past origin + 1, and the backward scan stays below origin - 1. -/
theorem searchSkipsTheNeighbour : Obligations.SearchSkipsTheNeighbour := by
  intro p o x
  refine ⟨findFwd_set_of_lt x (by omega), fun h => ?_, fun _ => ⟨scanBackward_set_of_le x 1 le_rfl, fun h => ?_⟩⟩
  · have := add_two_le_of_findFwd h
    omega
  · exact (lt_of_scanBackward h).false

end Sys2Proof.Machine
end

section
/-! O4: program text with comments outside the alphabet (spec/30_encoding.md R68; spec/70_reset_and_hazards.md R193, R198). -/

namespace Sys2Proof

theorem isAlphabetByte_letterByte (l : Letter) : isAlphabetByte (letterByte l) = true := by
  cases l <;> decide

/-- A triple that begins outside the alphabet is no token (30 R68). -/
theorem instrOfToken_of_not_alphabet {b0 : Byte} (b1 b2 : Byte) (h : isAlphabetByte b0 = false) : instrOfToken b0 b1 b2 = none := by
  refine instrOfToken_eq_none_iff.2 fun i hi => ?_
  obtain ⟨rfl, -⟩ := List.cons.inj hi
  rw [isAlphabetByte_letterByte] at h
  cases h

/-- The whole decode skips a byte outside the alphabet, whatever follows it. -/
theorem decodeProgram_cons_of_not_alphabet {b : Byte} (l : List Byte) (h : isAlphabetByte b = false) :
    decodeProgram (b :: l) = decodeProgram l := by
  match l with
  | [] => rfl
  | [_] => rfl
  | b1 :: b2 :: rest => exact decodeProgram_of_no_token rest (instrOfToken_of_not_alphabet b1 b2 h)

theorem decodeProgram_filler_append {filler : List Byte} (l : List Byte) (h : ∀ b ∈ filler, isAlphabetByte b = false) :
    decodeProgram (filler ++ l) = decodeProgram l := by
  induction filler with
  | nil => rfl
  | cons b filler ih =>
    obtain ⟨hb, hrest⟩ := List.forall_mem_cons.1 h
    rw [List.cons_append, decodeProgram_cons_of_not_alphabet _ hb, ih hrest]

/-- Settles O4, by induction on the text: the filler before a token is skipped, and the token is read whole. -/
theorem programTextDecodesToTheProgram : Obligations.ProgramTextDecodesToTheProgram := by
  intro text tail htext htail
  induction text with
  | nil => simpa [decodeProgram] using decodeProgram_filler_append [] htail
  | cons x text ih =>
    obtain ⟨hx, hrest⟩ := List.forall_mem_cons.1 htext
    rw [List.flatMap_cons, List.append_assoc, List.append_assoc, decodeProgram_filler_append _ hx,
      decodeProgram_of_decode (decode_encode_append x.2 _), ih hrest, List.map_cons]

end Sys2Proof
end

section
/-! O53 and O7: what one scan action establishes, and the whole decoder phase (spec/40_decoder.md R82, R83, R87, R90). -/

namespace Sys2Proof.Machine

/-- Everything a scan action can do: it hands over at a cursor with fewer than three bytes left, or it moves the cursor on, inside the source, past bytes
whose decode, at most one instruction for three bytes, it appends to the program (40 R82). -/
theorem scanAction_cases (s : State) :
    (s.par.src.length < s.cur + 3 ∧ scanAction s = { s with phase := .run }) ∨
    ∃ p c, s.cur < c ∧ s.cur + 3 ≤ s.par.src.length ∧ c ≤ s.par.src.length ∧ s.cur + 3 * p.length ≤ c ∧
      decodeProgram (s.par.src.drop s.cur) = p ++ decodeProgram (s.par.src.drop c) ∧
      scanAction s = { s with prog := s.prog ++ p, cur := c } := by
  rcases decode_cases (s.par.src.drop s.cur) with ⟨hlen, hd⟩ | ⟨b0, b1, b2, rest, hdrop, htoken⟩
  · rw [List.length_drop] at hlen
    exact .inl ⟨by omega, scanAction_of_tooShort hd⟩
  · have hlen : s.par.src.length - s.cur = rest.length + 3 := by simpa using congrArg List.length hdrop
    rcases htoken with ⟨hnone, hd⟩ | ⟨i, hi, hd⟩
    · refine .inr ⟨[], s.cur + 1, by omega, by omega, by omega, by simp, ?_, ?_⟩
      · rw [hdrop, decodeProgram_of_no_token rest hnone, ← List.drop_drop, hdrop]
        rfl
      · rw [scanAction_of_notAToken hd, List.append_nil]
    · refine .inr ⟨[i], s.cur + 3, by omega, by omega, by omega, by simp, ?_, scanAction_of_ok hd⟩
      rw [hdrop, decodeProgram_of_token rest hi, ← List.drop_drop, hdrop]
      rfl

/-- A scan action keeps what the decoder has established. -/
theorem State.Decoded.scanAction {s : State} (h : s.Decoded) (hdec : s.phase = .decode) : (scanAction s).Decoded := by
  obtain ⟨hreset, hdecode, hlen⟩ := h.scanning hdec
  rcases scanAction_cases s with ⟨hshort, hs⟩ | ⟨p, c, hcur, -, -, hp, hrest, hs⟩ <;> rw [hs]
  · refine ⟨fun hphase => ?_, fun _ => ?_⟩
    · cases hphase
    · have hend : decodeProgram (s.par.src.drop s.cur) = [] := decodeProgram_of_short (by rw [List.length_drop]; omega)
      show s.prog = decodeProgram s.par.src
      rw [hdecode, hend, List.append_nil]
  · refine ⟨fun _ => ⟨?_, ?_, ?_⟩, fun hphase => absurd hdec hphase⟩
    · rw [hreset]
      rfl
    · show decodeProgram s.par.src = s.prog ++ p ++ decodeProgram (s.par.src.drop c)
      rw [hdecode, hrest, List.append_assoc]
    · show 3 * (s.prog ++ p).length ≤ c
      rw [List.length_append]
      omega

/-- From a scanning state with the cursor inside the source, one attempt for each position where three bytes are left, and the stop, decode the rest of the
source; the cursor ends among the last positions, where it was if it was among them already. -/
theorem run_scan_bounded {s : State} (hdec : s.phase = .decode) (hcur : s.cur ≤ s.par.src.length) :
    ∃ n c, n ≤ s.par.src.length - s.cur - 2 + 1 ∧ c ≤ s.par.src.length ∧ s.par.src.length < c + 3 ∧
      (s.par.src.length < s.cur + 3 → c = s.cur) ∧
      Host.Core.run core n s = .next { s with prog := s.prog ++ decodeProgram (s.par.src.drop s.cur), cur := c, phase := .run } := by
  induction hleft : s.par.src.length - s.cur using Nat.strong_induction_on generalizing s with
  | _ left ih =>
    have hstep := step_of_decode hdec
    rcases scanAction_cases s with ⟨hshort, hs⟩ | ⟨p, c, hc, hroom, hcle, -, hrest, hs⟩ <;> rw [hs] at hstep
    · refine ⟨1, s.cur, by omega, hcur, hshort, fun _ => rfl, ?_⟩
      rw [core_run_succ 0 hstep, core_run_zero, decodeProgram_of_short (by rw [List.length_drop]; omega), List.append_nil]
    · obtain ⟨n, c', hn, hle, hlast, -, hrun⟩ :=
        ih (s.par.src.length - c) (by omega) (s := { s with prog := s.prog ++ p, cur := c }) hdec hcle rfl
      refine ⟨n + 1, c', by omega, hle, hlast, fun h => by omega, ?_⟩
      rw [core_run_succ n hstep, hrun, hrest, List.append_assoc]

/-- Settles O7: the whole run of the scan, from reset. -/
theorem decoderPhaseComputesTheDecode : Obligations.DecoderPhaseComputesTheDecode :=
  fun par => run_scan_bounded (s := State.resetWith par) rfl (Nat.zero_le _)

end Sys2Proof.Machine
end

section
/-! What a step writes, said once: the outcomes of an instruction by the elements they write, and the ways a step answers a next state
(spec/41_vm_cycle.md R96 to R102; spec/60_exceptions.md R175). -/

namespace Sys2Proof.Machine

theorem length_firstLine_pos {l : List Byte} (h : l ≠ []) : 0 < (firstLine l).length := by
  cases l with
  | nil => exact absurd rfl h
  | cons b rest => by_cases hb : b = 0x0A#8 <;> simp [firstLine, hb]

/-- Taking a line moves `in_pos` on and keeps it inside the input (45 R130). -/
theorem lt_and_le_add_length_firstLine {l : List Byte} {n : Nat} (h : n < l.length) :
    n < n + (firstLine (l.drop n)).length ∧ n + (firstLine (l.drop n)).length ≤ l.length := by
  have hpos : 0 < (firstLine (l.drop n)).length := length_firstLine_pos (by rw [ne_eq, List.drop_eq_nil_iff]; omega)
  have hle := firstLine_length_le (l.drop n)
  rw [List.length_drop] at hle
  omega

/-- What an instruction other than ExecuteValue can write, by the elements that change; the conditions name the instructions that do it. -/
inductive Effect (s : State) (i : Instr) : State → Prop where
  | pass (hi : i = .beginLoop ∨ i = .endLoop) : Effect s i s
  | jump (k : Nat) (hi : i = .beginLoop ∨ i = .endLoop) (hk : k < s.prog.length) : Effect s i (s.setPc k)
  | fail (k : Failure) : Effect s i (s.takeFailure k)
  | failRead (k : Failure) (n : Nat) (hi : i = .readOrWrite ∨ i = .readStdin) (hk : k = .notAscii ∨ k = .notInteger)
      (hn : s.inPos < n) (hle : n ≤ s.par.input.length) : Effect s i ((s.setInPos n).takeFailure k)
  | forward (hi : i = .incrementPointer) (hp : s.ptr + 1 < tapeLen) : Effect s i (s.setPtr (s.ptr + 1))
  | back (hi : i = .decrementPointer) (hp : s.ptr ≠ 0) : Effect s i (s.setPtr (s.ptr - 1))
  | store (v : CellVal) (m : Tape) (hi : i = .incrementByte ∨ i = .decrementByte ∨ i = .setZero)
      (hm : Tape.write s.mem s.ptr v = some m) : Effect s i (s.setMem m)
  | storeRead (v : CellVal) (m : Tape) (n : Nat) (hi : i = .readOrWrite ∨ i = .readStdin) (hm : Tape.write s.mem s.ptr v = some m)
      (hn : s.inPos < n) (hle : n ≤ s.par.input.length) : Effect s i ((s.setInPos n).setMem m)
  | copy (v : CellVal) (hi : i = .copyOrPaste) (hr : s.reg = none) : Effect s i (s.setReg (some v))
  | paste (v : CellVal) (m : Tape) (hi : i = .copyOrPaste) (hr : s.reg = some v) (hm : Tape.write s.mem s.ptr v = some m) :
      Effect s i ((s.setReg none).setMem m)
  | write (bytes : List Byte) (hi : i = .writeStdout ∨ i = .readOrWrite) : Effect s i (s.output bytes)

theorem DirectNext.effect {i : Instr} {s t : State} (h : DirectNext i s t) : Effect s i t := by
  cases i with
  | executeValue => exact h.elim
  | endLoop =>
    obtain ⟨v, -, ⟨-, rfl⟩ | ⟨-, ⟨k, hk, rfl⟩ | ⟨-, rfl⟩⟩⟩ := h
    · exact .pass (.inr rfl)
    · exact .jump k (.inr rfl) (List.getElem?_eq_some_iff.1 (beginLoop_of_findBwd hk)).1
    · exact .fail _
  | beginLoop =>
    obtain ⟨v, -, ⟨-, rfl⟩ | ⟨-, ⟨k, hk, rfl⟩ | ⟨-, rfl⟩⟩⟩ := h
    · exact .pass (.inl rfl)
    · exact .jump k (.inl rfl) (List.getElem?_eq_some_iff.1 (endLoop_of_findFwd hk)).1
    · exact .fail _
  | decrementPointer =>
    obtain ⟨-, rfl⟩ | ⟨hp, rfl⟩ := h
    · exact .fail _
    · exact .back rfl hp
  | incrementPointer =>
    obtain ⟨-, rfl⟩ | ⟨hp, rfl⟩ := h
    · exact .fail _
    · exact .forward rfl hp
  | readOrWrite =>
    obtain ⟨v, -, ⟨-, rfl⟩ | ⟨-, ⟨b, hb, -, m, hm, rfl⟩ | ⟨b, hb, -, rfl⟩ | ⟨-, -, rfl⟩⟩⟩ := h
    · exact .write _ (.inr rfl)
    · exact .storeRead _ m _ (.inl rfl) hm (Nat.lt_succ_self _) (List.getElem?_eq_some_iff.1 hb).1
    · exact .failRead _ _ (.inl rfl) (.inl rfl) (Nat.lt_succ_self _) (List.getElem?_eq_some_iff.1 hb).1
    · exact .fail _
  | decrementByte => obtain ⟨v, m, -, hm, rfl⟩ := h; exact .store _ m (.inr (.inl rfl)) hm
  | incrementByte => obtain ⟨v, m, -, hm, rfl⟩ := h; exact .store _ m (.inl rfl) hm
  | setZero => obtain ⟨m, hm, rfl⟩ := h; exact .store _ m (.inr (.inr rfl)) hm
  | copyOrPaste =>
    obtain ⟨hr, v, -, rfl⟩ | ⟨v, m, hr, hm, rfl⟩ := h
    · exact .copy v rfl hr
    · exact .paste v m rfl hr hm
  | writeStdout => obtain ⟨v, -, rfl⟩ := h; exact .write _ (.inl rfl)
  | readStdin =>
    obtain ⟨hin, ⟨v, m, -, hm, rfl⟩ | ⟨-, rfl⟩⟩ | ⟨-, -, rfl⟩ := h
    · obtain ⟨hlt, hle⟩ := lt_and_le_add_length_firstLine hin
      exact .storeRead v m _ (.inr rfl) hm hlt hle
    · obtain ⟨hlt, hle⟩ := lt_and_le_add_length_firstLine hin
      exact .failRead _ _ (.inr rfl) (.inr rfl) hlt hle
    · exact .fail _

theorem State.actsAs_of_fetch {s : State} {i : Instr} (hf : s.prog[s.pc]? = some i) (hi : i ≠ .executeValue) : s.actsAs = some i := by
  unfold State.actsAs
  rw [hf]
  cases i with
  | executeValue => exact absurd rfl hi
  | _ => rfl

theorem State.actsAs_of_executeValue {s : State} {v : CellVal} (hf : s.prog[s.pc]? = some .executeValue)
    (hv : Tape.read s.mem s.ptr = some v) : s.actsAs = instrOfCode v.toInt := by
  simp [State.actsAs, hf, hv]

theorem instrOfCode_eq_some_iff {n : Int} {i : Instr} : instrOfCode n = some i ↔ (code i : Int) = n := by
  refine ⟨fun h => of_decide_eq_true (List.find?_some h :), ?_⟩
  rintro rfl
  exact instrOfCode_code i

/-- The ways a step answers a next state: a scan action, the finish of the program, one of ExecuteValue's two checks, the instruction it acts as, or nothing. -/
inductive StepNext (s : State) : State → Prop where
  | scan (hs : s.phase = .decode) : StepNext s (scanAction s)
  | finish (hs : s.phase = .run) (hpc : s.pc = s.prog.length) : StepNext s (s.setPhase .done)
  | reject (hs : s.phase = .run) (hpc : s.pc < s.prog.length) (k : Failure) (hacts : ∀ j, s.actsAs = some j → j = .executeValue) :
      StepNext s (s.takeFailure k)
  | act (hs : s.phase = .run) (hpc : s.pc < s.prog.length) (i : Instr) (u : State) (hacts : s.actsAs = some i) (hu : DirectNext i s u) :
      StepNext s u.postIncrement
  | stay (hs : s.phase = .done ∨ s.phase = .failed) : StepNext s s

theorem stepNext_of_exec {s u : State} {i : Instr} (hs : s.phase = .run) (hf : s.prog[s.pc]? = some i) (hu : exec i s = .next u) :
    StepNext s u.postIncrement := by
  have hpc : s.pc < s.prog.length := (List.getElem?_eq_some_iff.1 hf).1
  by_cases hi : i = .executeValue
  · subst hi
    obtain ⟨v, hv, ⟨hrange, rfl⟩ | ⟨hself, rfl⟩ | ⟨j, hj, hne, hexec⟩⟩ := exec_executeValue_next hu
    · rw [State.postIncrement_of_failed rfl]
      refine .reject hs hpc _ fun j hj => ?_
      have hcode := instrOfCode_eq_some_iff.1 (State.actsAs_of_executeValue hf hv ▸ hj)
      have := code_le_eleven j
      omega
    · rw [State.postIncrement_of_failed rfl]
      refine .reject hs hpc _ fun j hj => ?_
      rw [State.actsAs_of_executeValue hf hv, hself] at hj
      exact (Option.some.inj hj).symm
    · exact .act hs hpc j u ((State.actsAs_of_executeValue hf hv).trans hj) (exec_next hne hexec)
  · exact .act hs hpc i u (State.actsAs_of_fetch hf hi) (exec_next hi hu)

theorem stepNext_of_step {s t : State} (h : step s = .next t) : StepNext s t := by
  obtain ⟨hs, he⟩ | ⟨hs, hpc, he⟩ | ⟨hs, i, hf, he⟩ | ⟨-, -, he⟩ | ⟨hs, he⟩ := step_cases s <;> rw [he] at h
  · cases h; exact .scan hs
  · cases h; exact .finish hs hpc
  · obtain ⟨u, hu, rfl⟩ := finishStep_eq_next h
    exact stepNext_of_exec hs hf hu
  · cases h
  · cases h; exact .stay hs

end Sys2Proof.Machine
end

section
/-! O52 and O53: every step keeps the machine's invariant and the decoder's (spec/10_state.md R20, R28; spec/41_vm_cycle.md R105; spec/42_pointer.md R112). -/

namespace Sys2Proof.Machine

/-! ### The updates that keep the invariant -/

theorem State.Inv.setMem {s : State} (h : s.Inv) {a : Nat} {v : CellVal} {m : Tape} (hm : Tape.write s.mem a v = some m) : (s.setMem m).Inv :=
  { h with mem_wf := Tape.wf_write h.mem_wf hm }

theorem State.Inv.setPtr {s : State} (h : s.Inv) {p : Nat} (hp : p < tapeLen) : (s.setPtr p).Inv :=
  { h with ptr_in_tape := hp }

theorem State.Inv.setPc {s : State} (h : s.Inv) {n : Nat} (hn : n ≤ s.prog.length) (hs : s.phase ≠ .done) : (s.setPc n).Inv :=
  { h with pc_in_prog := hn, done_at_end := fun hd => absurd hd hs }

theorem State.Inv.setReg {s : State} (h : s.Inv) (r : Option CellVal) : (s.setReg r).Inv := { h with }

theorem State.Inv.output {s : State} (h : s.Inv) (bytes : List Byte) : (s.output bytes).Inv := { h with }

theorem State.Inv.setInPos {s : State} (h : s.Inv) {n : Nat} (hn : n ≤ s.par.input.length) : (s.setInPos n).Inv :=
  { h with input_bound := hn }

theorem State.Inv.takeFailure {s : State} (h : s.Inv) (k : Failure) : (s.takeFailure k).Inv :=
  { h with fail_iff := iff_of_true rfl rfl, done_at_end := nofun }

theorem State.Inv.postIncrement_of_failure {s : State} (h : s.Inv) (k : Failure) : (s.takeFailure k).postIncrement.Inv :=
  State.postIncrement_of_failed (s := s.takeFailure k) rfl ▸ h.takeFailure k

theorem State.Inv.postIncrement_of_run {s : State} (h : s.Inv) (hs : s.phase = .run) (hpc : s.pc < s.prog.length) :
    s.postIncrement.Inv := by
  rw [State.postIncrement_of_not_failed (by rw [hs]; decide)]
  exact h.setPc hpc (by rw [hs]; decide)

theorem State.Inv.fail_eq_none {s : State} (h : s.Inv) (hs : s.phase ≠ .failed) : s.fail = none := by
  rwa [ne_eq, h.fail_iff, Option.not_isSome_iff_eq_none] at hs

/-! ### The steps -/

theorem State.Inv.scanAction {s : State} (h : s.Inv) (hs : s.phase = .decode) : (scanAction s).Inv := by
  have hfail : s.fail = none := h.fail_eq_none (by rw [hs]; decide)
  rcases scanAction_cases s with ⟨-, he⟩ | ⟨p, c, -, -, hc, -, -, he⟩ <;> rw [he]
  · exact { h with fail_iff := by simp [hfail], done_at_end := nofun }
  · exact { h with
      pc_in_prog := h.pc_in_prog.trans (by simp)
      done_at_end := fun hd => by rw [hs] at hd; cases hd
      cursor_bound := hc }

theorem State.Inv.finish {s : State} (h : s.Inv) (hs : s.phase = .run) (hpc : s.pc = s.prog.length) : (s.setPhase .done).Inv := by
  have hfail : s.fail = none := h.fail_eq_none (by rw [hs]; decide)
  exact { h with fail_iff := by simp [hfail], done_at_end := fun _ => hpc }

theorem State.Inv.effect {s u : State} {i : Instr} (h : s.Inv) (hs : s.phase = .run) (hpc : s.pc < s.prog.length)
    (hu : Effect s i u) : u.postIncrement.Inv := by
  have hptr := h.ptr_in_tape
  cases hu with
  | pass => exact h.postIncrement_of_run hs hpc
  | jump k _ hk => exact (h.setPc hk.le (by rw [hs]; decide)).postIncrement_of_run hs hk
  | fail k => exact h.postIncrement_of_failure k
  | failRead k n _ _ _ hle => exact (h.setInPos hle).postIncrement_of_failure k
  | forward _ hp => exact (h.setPtr hp).postIncrement_of_run hs hpc
  | back _ hp => exact (h.setPtr (by omega)).postIncrement_of_run hs hpc
  | store v m _ hm => exact (h.setMem hm).postIncrement_of_run hs hpc
  | storeRead v m n _ hm _ hle => exact ((h.setInPos hle).setMem (s := s.setInPos n) hm).postIncrement_of_run hs hpc
  | copy v => exact (h.setReg _).postIncrement_of_run hs hpc
  | paste v m _ _ hm => exact ((h.setReg none).setMem (s := s.setReg none) hm).postIncrement_of_run hs hpc
  | write bytes => exact (h.output bytes).postIncrement_of_run hs hpc

/-- Settles O52, by the ways a step answers a next state. -/
theorem everyStepKeepsTheInvariant : Obligations.EveryStepKeepsTheInvariant := by
  intro s t h ht
  cases stepNext_of_step ht with
  | scan hs => exact h.scanAction hs
  | finish hs hpc => exact h.finish hs hpc
  | reject => exact h.takeFailure _
  | act hs hpc i u _ hu => exact h.effect hs hpc hu.effect
  | stay => exact h

/-! ### What no instruction writes -/

theorem Effect.par {s u : State} {i : Instr} (h : Effect s i u) : u.par = s.par := by cases h <;> rfl

theorem Effect.prog {s u : State} {i : Instr} (h : Effect s i u) : u.prog = s.prog := by cases h <;> rfl

theorem Effect.cur {s u : State} {i : Instr} (h : Effect s i u) : u.cur = s.cur := by cases h <;> rfl

theorem Effect.phase {s u : State} {i : Instr} (h : Effect s i u) : u.phase = s.phase ∨ u.phase = .failed := by
  cases h <;> simp

theorem scanAction_par (s : State) : (scanAction s).par = s.par := by
  rcases scanAction_cases s with ⟨-, he⟩ | ⟨p, c, -, -, -, -, -, he⟩ <;> rw [he]

/-- Settles O54: a scan action alone writes the program and the cursor, and nothing writes the parameters. -/
theorem programIsReadOnlyAfterTheDecode : Obligations.ProgramIsReadOnlyAfterTheDecode := by
  intro s t ht
  cases stepNext_of_step ht with
  | scan hs => exact ⟨scanAction_par s, fun h => absurd hs h⟩
  | finish => exact ⟨rfl, fun _ => ⟨rfl, rfl, by simp⟩⟩
  | reject => exact ⟨rfl, fun _ => ⟨rfl, rfl, by simp⟩⟩
  | act hs _ i u _ hu =>
    have he := hu.effect
    refine ⟨by simp [he.par], fun _ => ⟨by simp [he.prog], by simp [he.cur], ?_⟩⟩
    rw [State.postIncrement_phase]
    obtain h | h := he.phase <;> simp [h, hs]
  | stay => exact ⟨rfl, fun h => ⟨rfl, rfl, h⟩⟩

/-- Settles O53: a scan action extends the decode, and after the hand-over no step writes the program or the source. -/
theorem everyStepKeepsTheDecode : Obligations.EveryStepKeepsTheDecode := by
  intro s t h ht
  by_cases hs : s.phase = .decode
  · rw [step_of_decode hs] at ht
    cases ht
    exact h.scanAction hs
  · obtain ⟨hpar, hframe⟩ := programIsReadOnlyAfterTheDecode s t ht
    obtain ⟨hprog, -, hphase⟩ := hframe hs
    exact ⟨fun hdec => absurd hdec hphase, fun _ => by rw [hprog, hpar, h.decoded hs]⟩

end Sys2Proof.Machine
end

section
/-! O12 and O13: the absorbing phases, and the only way to Done (spec/41_vm_cycle.md R96; spec/60_exceptions.md R176). -/

namespace Sys2Proof.Machine

/-- Settles O13, by induction on the steps. -/
theorem finishedMachineStays : Obligations.FinishedMachineStays := by
  intro s hs n
  have hstep : step s = .next s := hs.elim step_of_done step_of_failed
  induction n with
  | zero => rfl
  | succ n ih => exact (core_run_succ n hstep).trans ih

/-- Settles O12: the step that finishes the program, the run that stays there, and no other way of a step leads to Done. -/
theorem runIsDoneExactlyAtProgramEnd : Obligations.RunIsDoneExactlyAtProgramEnd := by
  refine ⟨fun s hs hpc => ?_, fun s t ht hdone hnot => ?_⟩
  · have hstep := step_of_end hs hpc
    exact ⟨hstep, fun n => (core_run_succ n hstep).trans (finishedMachineStays _ (.inl rfl) n)⟩
  · cases stepNext_of_step ht with
    | scan hs =>
      obtain h | h := scanAction_phase hs <;> rw [h] at hdone <;> cases hdone
    | finish hs hpc => exact ⟨hs, hpc, rfl⟩
    | reject => cases hdone
    | act hs _ i u _ hu =>
      rw [State.postIncrement_phase] at hdone
      obtain h | h := hu.effect.phase <;> simp [h, hs] at hdone
    | stay => exact absurd hdone hnot

end Sys2Proof.Machine
end

section
/-! O14, O17, O21, O23 and O27: which step changes which element (spec/10_state.md R21, R24; spec/41_vm_cycle.md R106; spec/42_pointer.md R112;
spec/44_register.md R121; spec/45_io.md R126, R137). -/

namespace Sys2Proof.Machine

theorem Effect.pc {s u : State} {i : Instr} (h : Effect s i u) (hbegin : i ≠ .beginLoop) (hend : i ≠ .endLoop) : u.pc = s.pc := by
  cases h with
  | jump k hi => exact (hi.elim hbegin hend).elim
  | _ => rfl

theorem Effect.ptr {s u : State} {i : Instr} (h : Effect s i u) (hne : u.ptr ≠ s.ptr) :
    (i = .incrementPointer ∧ u.ptr = s.ptr + 1 ∧ u.ptr < tapeLen) ∨ (i = .decrementPointer ∧ u.ptr + 1 = s.ptr) := by
  cases h with
  | forward hi hp => exact .inl ⟨hi, rfl, hp⟩
  | back hi hp => exact .inr ⟨hi, Nat.sub_add_cancel (Nat.pos_of_ne_zero hp)⟩
  | _ => exact absurd rfl hne

theorem Effect.read_other {s u : State} {i : Instr} (h : Effect s i u) {a : Nat} (ha : a ≠ s.ptr) :
    Tape.read u.mem a = Tape.read s.mem a := by
  cases h with
  | store v m _ hm => exact Tape.read_write_other hm ha
  | storeRead v m n _ hm => exact Tape.read_write_other hm ha
  | paste v m _ _ hm => exact Tape.read_write_other hm ha
  | _ => rfl

theorem Effect.reg {s u : State} {i : Instr} (h : Effect s i u) (hi : i ≠ .copyOrPaste) : u.reg = s.reg := by
  cases h with
  | copy v hcopy => exact absurd hcopy hi
  | paste v m hpaste => exact absurd hpaste hi
  | _ => rfl

/-- The output grows or the input advances, and not both. -/
theorem Effect.channels {s u : State} {i : Instr} (h : Effect s i u) :
    (∃ bytes, u.out = s.out ++ bytes) ∧ s.inPos ≤ u.inPos ∧ (u.out = s.out ∨ u.inPos = s.inPos) := by
  cases h with
  | failRead k n _ _ hn => exact ⟨⟨[], (List.append_nil _).symm⟩, hn.le, .inl rfl⟩
  | storeRead v m n _ _ hn => exact ⟨⟨[], (List.append_nil _).symm⟩, hn.le, .inl rfl⟩
  | write bytes => exact ⟨⟨bytes, rfl⟩, le_rfl, .inr rfl⟩
  | _ => exact ⟨⟨[], (List.append_nil _).symm⟩, le_rfl, .inl rfl⟩

theorem Effect.channels_eq {s u : State} {i : Instr} (h : Effect s i u) (hw : i ≠ .writeStdout) (hl : i ≠ .readStdin)
    (hb : i ≠ .readOrWrite) : u.out = s.out ∧ u.inPos = s.inPos := by
  cases h with
  | failRead k n hi => exact (hi.elim hb hl).elim
  | storeRead v m n hi => exact (hi.elim hb hl).elim
  | write bytes hi => exact (hi.elim hw hb).elim
  | _ => exact ⟨rfl, rfl⟩

/-- What a scan action leaves unchanged (40 R89, R90). -/
theorem scanAction_frame (s : State) : ∃ p c f, scanAction s = { s with prog := p, cur := c, phase := f } := by
  rcases scanAction_cases s with ⟨-, he⟩ | ⟨p, c, -, -, -, -, -, he⟩ <;> exact ⟨_, _, _, he⟩

/-- Settles O14: the brackets by what their search finds, and no other instruction writes `pc` before the post-increment. -/
theorem pcAfterASuccessfulStep : Obligations.PcAfterASuccessfulStep := by
  intro s t i hrun hacts ht htrun
  cases stepNext_of_step ht with
  | scan hs => rw [hs] at hrun; cases hrun
  | finish => cases htrun
  | reject => cases htrun
  | stay hs => rw [hrun] at hs; simp at hs
  | act _ _ j u hj hu =>
    obtain rfl : j = i := Option.some.inj (hj.symm.trans hacts)
    have hok : u.phase = .run := by rwa [State.postIncrement_phase] at htrun
    rw [State.postIncrement_of_not_failed (by rw [hok]; decide)]
    refine ⟨fun hbegin hend => congrArg (· + 1) (hu.effect.pc hbegin hend), ?_, ?_, ?_, ?_⟩
    · rintro rfl hv
      obtain ⟨v, hread, ⟨-, rfl⟩ | ⟨rfl, -⟩⟩ := hu
      · rfl
      · exact absurd hread hv
    · rintro rfl hv
      obtain ⟨v, hread, ⟨hne, -⟩ | ⟨-, ⟨k, hk, rfl⟩ | ⟨-, rfl⟩⟩⟩ := hu
      · exact absurd (Option.some.inj (hread.symm.trans hv)) hne
      · exact ⟨k, findFwd_eq_some_iff.1 hk, rfl⟩
      · cases hok
    · rintro rfl hv
      obtain ⟨v, hread, ⟨-, rfl⟩ | ⟨hne, -⟩⟩ := hu
      · rfl
      · exact absurd (Option.some.inj (hread.symm.trans hv)) hne
    · rintro rfl hv
      obtain ⟨v, hread, ⟨rfl, -⟩ | ⟨-, ⟨k, hk, rfl⟩ | ⟨-, rfl⟩⟩⟩ := hu
      · exact absurd hread hv
      · exact ⟨k, findBwd_eq_some_iff.1 hk, rfl⟩
      · cases hok

/-- Settles O17: of the effects only the two moves write `ptr`. -/
theorem onlyPointerInstructionsMoveThePointer : Obligations.OnlyPointerInstructionsMoveThePointer := by
  intro s t hptr ht hne
  cases stepNext_of_step ht with
  | scan =>
    obtain ⟨p, c, f, he⟩ := scanAction_frame s
    rw [he] at hne
    exact absurd rfl hne
  | act hs _ i u hacts hu =>
    rw [State.postIncrement_ptr] at hne ⊢
    obtain ⟨rfl, hmove, hlt⟩ | ⟨rfl, hmove⟩ := hu.effect.ptr hne
    · exact ⟨hs, hlt, .inl ⟨hacts, hmove⟩⟩
    · exact ⟨hs, by omega, .inr ⟨hacts, hmove⟩⟩
  | _ => exact absurd rfl hne

/-- Settles O21: every store goes to the cell at `ptr`. -/
theorem onlyTheCurrentCellChanges : Obligations.OnlyTheCurrentCellChanges := by
  intro s t ht a ha
  cases stepNext_of_step ht with
  | scan =>
    obtain ⟨p, c, f, he⟩ := scanAction_frame s
    rw [he]
  | act _ _ i u _ hu => exact State.postIncrement_mem u ▸ hu.effect.read_other ha
  | _ => rfl

/-- Settles O23: a copy fills the empty Register, a paste empties it, and nothing else writes it. -/
theorem onlyCopyOrPasteChangesTheRegister : Obligations.OnlyCopyOrPasteChangesTheRegister := by
  intro s t ht
  cases stepNext_of_step ht with
  | scan hs =>
    obtain ⟨p, c, f, he⟩ := scanAction_frame s
    rw [he]
    exact ⟨fun hrun => (by rw [hs] at hrun; cases hrun), fun _ => rfl⟩
  | finish _ hpc => exact ⟨fun _ hacts => by simp [State.actsAs, hpc] at hacts, fun _ => rfl⟩
  | reject _ _ k hacts => exact ⟨fun _ hcopy => (nomatch hacts _ hcopy), fun _ => rfl⟩
  | stay hs => exact ⟨fun hrun => by simp [hrun] at hs, fun _ => rfl⟩
  | act hs _ i u hacts hu =>
    rw [State.postIncrement_reg]
    refine ⟨fun _ hcopy => ?_, fun hnot => hu.effect.reg ?_⟩
    · obtain rfl : i = .copyOrPaste := Option.some.inj (hacts.symm.trans hcopy)
      obtain ⟨hr, v, -, rfl⟩ | ⟨v, m, hr, -, rfl⟩ := hu <;> simp [hr]
    · rintro rfl
      exact hnot.elim (fun h => h hs) (fun h => h hacts)

/-- Settles O27: of the effects only the reads and the writes touch a channel. -/
theorem channelsOnlyGrowAndNeverBoth : Obligations.ChannelsOnlyGrowAndNeverBoth := by
  intro s t ht
  have hsame {u : State} (hout : u.out = s.out) (hin : u.inPos = s.inPos) :
      (∃ bytes, u.out = s.out ++ bytes) ∧ s.inPos ≤ u.inPos ∧ (u.out = s.out ∨ u.inPos = s.inPos) ∧
        (s.phase ≠ .run ∨ (s.actsAs ≠ some .writeStdout ∧ s.actsAs ≠ some .readStdin ∧ s.actsAs ≠ some .readOrWrite) →
          u.out = s.out ∧ u.inPos = s.inPos) :=
    ⟨⟨[], by rw [hout, List.append_nil]⟩, hin.ge, .inl hout, fun _ => ⟨hout, hin⟩⟩
  cases stepNext_of_step ht with
  | scan =>
    obtain ⟨p, c, f, he⟩ := scanAction_frame s
    rw [he]
    exact hsame rfl rfl
  | act hs _ i u hacts hu =>
    rw [State.postIncrement_out, State.postIncrement_inPos]
    obtain ⟨hout, hin, hone⟩ := hu.effect.channels
    refine ⟨hout, hin, hone, fun hnot => ?_⟩
    obtain ⟨hw, hl, hb⟩ := hnot.resolve_left fun h => h hs
    simp only [hacts, ne_eq, Option.some.injEq] at hw hl hb
    exact hu.effect.channels_eq hw hl hb
  | _ => exact hsame rfl rfl

end Sys2Proof.Machine
end

section
/-! O47: what a failing step leaves (spec/41_vm_cycle.md R100; spec/60_exceptions.md R175). -/

namespace Sys2Proof.Machine

/-- `t` is the failure of `s`: only `phase`, `fail` and the consumed input differ. -/
def FailsPrecisely (s t : State) : Prop :=
  ∃ k n, t = { s with phase := .failed, fail := some k, inPos := n } ∧ s.inPos ≤ n ∧ (n ≠ s.inPos → k = .notAscii ∨ k = .notInteger)

theorem failsPrecisely_takeFailure (s : State) (k : Failure) : FailsPrecisely s (s.takeFailure k) :=
  ⟨k, s.inPos, rfl, le_rfl, fun h => absurd rfl h⟩

theorem Effect.failsPrecisely {s u : State} {i : Instr} (h : Effect s i u) (hs : s.phase = .run) (hu : u.phase = .failed) :
    FailsPrecisely s u := by
  cases h with
  | fail k => exact failsPrecisely_takeFailure s k
  | failRead k n _ hk hn => exact ⟨k, n, rfl, hn.le, fun _ => hk⟩
  | _ => simp [hs] at hu

/-- Settles O47: a failing step is a failed check of ExecuteValue or an effect that fails, and the failed machine stays. -/
theorem failureIsPreciseAndFinal : Obligations.FailureIsPreciseAndFinal := by
  intro s t hrun ht hfailed
  refine ⟨?_, finishedMachineStays t (.inr hfailed)⟩
  show FailsPrecisely s t
  cases stepNext_of_step ht with
  | scan hs => rw [hs] at hrun; cases hrun
  | finish => cases hfailed
  | reject _ _ k => exact failsPrecisely_takeFailure s k
  | stay hs => rw [hrun] at hs; simp at hs
  | act _ _ i u _ hu =>
    rw [State.postIncrement_phase] at hfailed
    rw [State.postIncrement_of_failed hfailed]
    exact hu.effect.failsPrecisely hrun hfailed

end Sys2Proof.Machine
end

section
/-! O15, O16, O18 to O20: the pointer and the cell instructions (spec/42_pointer.md R110, R111; spec/43_cell.md R115 to R118). -/

namespace Sys2Proof.Machine

/-- Settles O15, by the test of the lower bound. -/
theorem decrementPointerMovesOrOverflows : Obligations.DecrementPointerMovesOrOverflows := by
  refine fun s => ⟨fun h => ?_, fun h => ?_⟩
  · have hstart : atTapeStart s = false := decide_eq_false h.ne'
    simp [exec, execDecrementPointer, hstart, State.setPtr]
  · simp [exec, execDecrementPointer, atTapeStart, h, State.takeFailure]

/-- Settles O16, by the test of the upper bound. -/
theorem incrementPointerMovesOrOverflows : Obligations.IncrementPointerMovesOrOverflows := by
  refine fun s => ⟨fun h => ?_, fun h => ?_⟩
  · have hend : atTapeEnd s = false := decide_eq_false (by rw [tapeLen]; omega)
    simp [exec, execIncrementPointer, hend, State.setPtr]
  · simp [exec, execIncrementPointer, atTapeEnd, tapeLen, h, State.takeFailure]

theorem toInt_bounds (v : CellVal) : -2147483648 ≤ v.toInt ∧ v.toInt ≤ 2147483647 := by
  have hle := v.le_two_mul_toInt
  have hlt := v.two_mul_toInt_lt
  omega

theorem toInt_wrap32_of_bounds {n : Int} (hle : -2147483648 ≤ n) (hlt : n ≤ 2147483647) : (wrap32 n).toInt = n := by
  rw [wrap32, BitVec.toInt_ofInt]
  exact Int.bmod_eq_of_le (by omega) (by omega)

theorem toInt_cellIncrement (v : CellVal) :
    (cellIncrement v).toInt = if v.toInt = 2147483647 then -2147483648 else v.toInt + 1 := by
  have hv := toInt_bounds v
  split
  case isTrue hmax => rw [cellIncrement, hmax]; decide
  case isFalse hmax => exact toInt_wrap32_of_bounds (by omega) (by omega)

theorem toInt_cellDecrement (v : CellVal) :
    (cellDecrement v).toInt = if v.toInt = -2147483648 then 2147483647 else v.toInt - 1 := by
  have hv := toInt_bounds v
  split
  case isTrue hmin => rw [cellDecrement, hmin]; decide
  case isFalse hmin => exact toInt_wrap32_of_bounds (by omega) (by omega)

theorem exec_incrementByte_of_read {s : State} {v : CellVal} (h : Tape.read s.mem s.ptr = some v) :
    exec .incrementByte s = storeCurrentCell (cellIncrement v) s :=
  withCurrentCell_of_read _ h

theorem exec_decrementByte_of_read {s : State} {v : CellVal} (h : Tape.read s.mem s.ptr = some v) :
    exec .decrementByte s = storeCurrentCell (cellDecrement v) s :=
  withCurrentCell_of_read _ h

/-- Settles O18: a store of the incremented cell. -/
theorem incrementByteWrapsTheCell : Obligations.IncrementByteWrapsTheCell := by
  intro s v hwf hv
  obtain ⟨m, hexec, hm, hread, hframe⟩ := storeCurrentCell_of_lt (cellIncrement v) (Tape.lt_of_read hv) hwf
  exact ⟨m, _, (exec_incrementByte_of_read hv).trans hexec, hm, hread, toInt_cellIncrement v, hframe⟩

/-- Settles O19: a store of the decremented cell. -/
theorem decrementByteWrapsTheCell : Obligations.DecrementByteWrapsTheCell := by
  intro s v hwf hv
  obtain ⟨m, hexec, hm, hread, hframe⟩ := storeCurrentCell_of_lt (cellDecrement v) (Tape.lt_of_read hv) hwf
  exact ⟨m, _, (exec_decrementByte_of_read hv).trans hexec, hm, hread, toInt_cellDecrement v, hframe⟩

/-- Settles O20: a store of 0. -/
theorem setZeroClearsTheCell : Obligations.SetZeroClearsTheCell :=
  fun _ hwf hptr => storeCurrentCell_of_lt 0#32 hptr hwf

end Sys2Proof.Machine
end

section
/-! O24, O26, O29, O32, O33, O35 to O37: the output and the input instructions (spec/45_io.md R125 to R135). -/

namespace Sys2Proof.Machine

theorem toInt_eq_zero_iff (v : CellVal) : v.toInt = 0 ↔ v = 0#32 := by
  simpa [isZeroCell] using isZeroCell_iff v

/-- Settles O24: the cell is read and its text appended. -/
theorem writeStdoutAppendsDecimalText : Obligations.WriteStdoutAppendsDecimalText :=
  fun _ _ hv => withCurrentCell_of_read _ hv

theorem exec_readOrWrite_of_ne_zero {s : State} {v : CellVal} (h : Tape.read s.mem s.ptr = some v) (hv : v ≠ 0#32) :
    exec .readOrWrite s = .next (s.output [byteOfCell v]) := by
  simp [exec, execReadOrWrite, withCurrentCell_of_read _ h, isZeroCell_iff, hv]

theorem exec_readOrWrite_of_zero {s : State} (h : Tape.read s.mem s.ptr = some 0#32) : exec .readOrWrite s = readPath s := by
  simp [exec, execReadOrWrite, withCurrentCell_of_read _ h, isZeroCell_iff]

/-- The low 8 bits of a cell are its signed value modulo 256 (45 R134). -/
theorem toNat_byteOfCell (v : CellVal) : ((byteOfCell v).toNat : Int) = v.toInt % 256 := by
  rw [byteOfCell, BitVec.toNat_setWidth, BitVec.toInt_eq_toNat_cond]
  split <;> omega

/-- Settles O26: the byte is the value modulo 256, which is the value itself from 1 to 255. -/
theorem readOrWriteWritesTheLowByte : Obligations.ReadOrWriteWritesTheLowByte := by
  intro s v hv hne
  have hbyte := toNat_byteOfCell v
  exact ⟨byteOfCell v, exec_readOrWrite_of_ne_zero hv (mt (toInt_eq_zero_iff v).2 hne), hbyte, fun h1 h255 => by omega⟩

theorem firstLine_append_lineFeed {body : List Byte} (rest : List Byte) (h : ∀ b ∈ body, b ≠ 0x0A#8) :
    firstLine (body ++ 0x0A#8 :: rest) = body ++ [0x0A#8] := by
  induction body with
  | nil => simp [firstLine]
  | cons b body ih =>
    obtain ⟨hb, hbody⟩ := List.forall_mem_cons.1 h
    simp [firstLine, hb, ih hbody]

theorem firstLine_of_no_lineFeed {body : List Byte} (h : ∀ b ∈ body, b ≠ 0x0A#8) : firstLine body = body := by
  induction body with
  | nil => rfl
  | cons b body ih =>
    obtain ⟨hb, hbody⟩ := List.forall_mem_cons.1 h
    simp [firstLine, hb, ih hbody]

/-- With input left a line is taken, and `in_pos` passes it. -/
theorem takeLine_of_lt {s : State} (h : s.inPos < s.par.input.length) :
    takeLine s = .got (firstLine (s.par.input.drop s.inPos))
      (s.setInPos (s.inPos + (firstLine (s.par.input.drop s.inPos)).length)) := by
  obtain ⟨-, ht⟩ | ⟨hle, -⟩ := takeLine_cases s
  · exact ht
  · omega

/-- Settles O29: the line by the bytes before its line feed, and what taking it advances. -/
theorem lineEndsAtTheFirstLineFeed : Obligations.LineEndsAtTheFirstLineFeed :=
  ⟨fun _ rest h => ⟨firstLine_append_lineFeed rest h, firstLine_of_no_lineFeed h⟩,
   fun _ h => ⟨_, rfl, takeLine_of_lt h, lt_and_le_add_length_firstLine h⟩⟩

theorem exec_readStdin_of_lt {s : State} (h : s.inPos < s.par.input.length) :
    exec .readStdin s = storeParsedLine (firstLine (s.par.input.drop s.inPos))
      (s.setInPos (s.inPos + (firstLine (s.par.input.drop s.inPos)).length)) := by
  simp [exec, execReadStdin, takeLine_of_lt h]

theorem storeParsedLine_of_some {line : List Byte} {s : State} {v : CellVal} (h : parseLine s.par.parse line = some v) :
    storeParsedLine line s = storeCurrentCell v s := by
  simp [storeParsedLine, h]

theorem storeParsedLine_of_none {line : List Byte} {s : State} (h : parseLine s.par.parse line = none) :
    storeParsedLine line s = .next (s.takeFailure .notInteger) := by
  simp [storeParsedLine, h]

/-- Settles O32: a store, by the state whose `in_pos` has passed the line. -/
theorem readStdinStoresTheParsedLine : Obligations.ReadStdinStoresTheParsedLine := by
  intro s v hwf hptr hin hparse
  have hexec := (exec_readStdin_of_lt hin).trans (storeParsedLine_of_some hparse)
  rw [hexec]
  exact storeCurrentCell_of_lt v hptr hwf

/-- Settles O33: the failure is that of the state whose `in_pos` has passed the line. -/
theorem readStdinRejectsAnUnparsableLine : Obligations.ReadStdinRejectsAnUnparsableLine := by
  intro s hin hparse
  exact (exec_readStdin_of_lt hin).trans (storeParsedLine_of_none hparse)

theorem toInt_cellOfByte (b : Byte) : (cellOfByte b).toInt = b.toNat := by
  have hb := b.isLt
  rw [cellOfByte, BitVec.toInt_eq_toNat_cond, BitVec.toNat_setWidth]
  split <;> omega

/-- Settles O35: a store of the byte's value, by the state whose `in_pos` has passed the byte. -/
theorem readOrWriteReadsAnAsciiByte : Obligations.ReadOrWriteReadsAnAsciiByte := by
  intro s b hwf hzero hb hascii
  have hexec : exec .readOrWrite s = storeCurrentCell (cellOfByte b) (s.setInPos (s.inPos + 1)) := by
    simp [exec_readOrWrite_of_zero hzero, readPath, takeByte_of_getElem hb, isAscii, hascii]
  obtain ⟨m, hstore, hm, hread, hframe⟩ :=
    storeCurrentCell_of_lt (s := s.setInPos (s.inPos + 1)) (cellOfByte b) (Tape.lt_of_read hzero) hwf
  exact ⟨m, _, hexec.trans hstore, hm, hread, toInt_cellOfByte b, hframe⟩

/-- Settles O36: the failure is that of the state whose `in_pos` has passed the byte. -/
theorem readOrWriteRejectsANonAsciiByte : Obligations.ReadOrWriteRejectsANonAsciiByte := by
  intro s b hzero hb hbig
  have hascii : isAscii b = false := decide_eq_false (Nat.not_le.2 hbig)
  simp [exec_readOrWrite_of_zero hzero, readPath, takeByte_of_getElem hb, hascii, State.takeFailure, State.setInPos]

theorem takeByte_at_end {s : State} (h : s.inPos = s.par.input.length) : takeByte s = .endOfInput := by
  simp [takeByte, h]

theorem takeLine_at_end {s : State} (h : s.inPos = s.par.input.length) : takeLine s = .endOfInput := by
  simp [takeLine, h]

/-- Settles O37: with the input exhausted nothing is taken, and the policies decide; the empty line does not parse. -/
theorem readsAtEndOfInputFollowThePolicies : Obligations.ReadsAtEndOfInputFollowThePolicies := by
  intro s hend
  refine ⟨fun hzero hp => ?_, fun hzero hp => ?_, fun hp => ?_, fun hp => ?_⟩
  · simp [exec_readOrWrite_of_zero hzero, readPath, takeByte_at_end hend, hp]
  · simp [exec_readOrWrite_of_zero hzero, readPath, takeByte_at_end hend, hp, State.takeFailure]
  · simp [exec, execReadStdin, takeLine_at_end hend, hp, storeParsedLine_of_none (parseLine_nil _), State.takeFailure]
  · simp [exec, execReadStdin, takeLine_at_end hend, hp]

end Sys2Proof.Machine
end

section
/-! O41, O42 and O46: the brackets, by what their search finds (spec/47_loops.md R150, R151, R155). -/

namespace Sys2Proof.Machine

theorem exec_beginLoop_of_match {s : State} {k : Nat} (h : Tape.read s.mem s.ptr = some 0#32) (hk : findFwd s.prog s.pc = some k) :
    exec .beginLoop s = .next (s.setPc k) := by
  simp [exec, execBeginLoop, withCurrentCell_of_read _ h, isZeroCell_iff, hk]

theorem exec_beginLoop_of_unmatched {s : State} (h : Tape.read s.mem s.ptr = some 0#32) (hk : findFwd s.prog s.pc = none) :
    exec .beginLoop s = .next (s.takeFailure .unmatchedEndLoop) := by
  simp [exec, execBeginLoop, withCurrentCell_of_read _ h, isZeroCell_iff, hk]

theorem exec_endLoop_of_match {s : State} {v : CellVal} {k : Nat} (h : Tape.read s.mem s.ptr = some v) (hv : v ≠ 0#32)
    (hk : findBwd s.prog s.pc = some k) : exec .endLoop s = .next (s.setPc k) := by
  simp [exec, execEndLoop, withCurrentCell_of_read _ h, isZeroCell_iff, hv, hk]

theorem exec_endLoop_of_unmatched {s : State} {v : CellVal} (h : Tape.read s.mem s.ptr = some v) (hv : v ≠ 0#32)
    (hk : findBwd s.prog s.pc = none) : exec .endLoop s = .next (s.takeFailure .unmatchedBeginLoop) := by
  simp [exec, execEndLoop, withCurrentCell_of_read _ h, isZeroCell_iff, hv, hk]

theorem findFwd_eq_none_iff {p : List Instr} {o : Nat} : findFwd p o = none ↔ ¬ ∃ k, IsForwardMatch p o k := by
  simp only [Option.eq_none_iff_forall_ne_some, ne_eq, findFwd_eq_some_iff, not_exists]

theorem findBwd_eq_none_iff {p : List Instr} {o : Nat} : findBwd p o = none ↔ ¬ ∃ k, IsBackwardMatch p o k := by
  simp only [Option.eq_none_iff_forall_ne_some, ne_eq, findBwd_eq_some_iff, not_exists]

/-- Settles O41: the forward search answers the forward match. -/
theorem beginLoopJumpsToItsForwardMatch : Obligations.BeginLoopJumpsToItsForwardMatch := by
  intro s v hv
  rw [ne_eq, toInt_eq_zero_iff]
  refine ⟨exec_beginLoop_of_ne_zero hv, ?_, ?_⟩
  · rintro rfl k hk
    exact exec_beginLoop_of_match hv (findFwd_eq_some_iff.2 hk)
  · rintro rfl hnone
    exact exec_beginLoop_of_unmatched hv (findFwd_eq_none_iff.2 hnone)

/-- Settles O42: the backward search answers the backward match. -/
theorem endLoopJumpsToItsBackwardMatch : Obligations.EndLoopJumpsToItsBackwardMatch := by
  intro s v hv
  rw [ne_eq, toInt_eq_zero_iff]
  refine ⟨?_, fun hne k hk => ?_, fun hne hnone => ?_⟩
  · rintro rfl
    exact exec_endLoop_of_zero hv
  · exact exec_endLoop_of_match hv hne (findBwd_eq_some_iff.2 hk)
  · exact exec_endLoop_of_unmatched hv hne (findBwd_eq_none_iff.2 hnone)

/-- A step whose instruction only moves `pc` ends one further. -/
theorem step_of_jump {s : State} {i : Instr} {k : Nat} (hrun : s.phase = .run) (hf : s.prog[s.pc]? = some i)
    (hexec : exec i s = .next (s.setPc k)) : step s = .next (s.setPc (k + 1)) := by
  have hok : (s.setPc k).phase ≠ .failed := by simp [hrun]
  rw [step_of_fetch hrun hf, hexec, finishStep_next, State.postIncrement_of_not_failed hok]
  rfl

/-- Settles O46: the jump leaves `pc` on the match, and the post-increment passes it. -/
theorem jumpPassesTheMatchedBracket : Obligations.JumpPassesTheMatchedBracket := by
  intro s v k hrun hv
  rw [ne_eq, toInt_eq_zero_iff]
  refine ⟨?_, fun hf hne hk => step_of_jump hrun hf (exec_endLoop_of_match hv hne hk)⟩
  rintro hf rfl hk
  exact step_of_jump hrun hf (exec_beginLoop_of_match hv hk)

end Sys2Proof.Machine
end

section
/-! O40: ExecuteValue for each code (spec/46_execute_value.md R144). -/

namespace Sys2Proof.Machine

/-- On the code of another instruction ExecuteValue is that instruction. -/
theorem exec_executeValue_eq {s : State} {v : CellVal} {i : Instr} (hv : Tape.read s.mem s.ptr = some v) (hc : v.toInt = code i)
    (hi : i ≠ .executeValue) : exec .executeValue s = exec i s :=
  (exec_executeValue_of_code hv hc).trans (dispatchCode_of_ne s hi)

/-- Settles O40: each code dispatches its instruction, on a cell that holds the code. -/
theorem executeValueOutcomesByCode : Obligations.ExecuteValueOutcomesByCode := by
  intro s v hwf hv
  have hptr : s.ptr < 30000 := Tape.lt_of_read hv
  have hcell {n : CellVal} (h : v.toInt = n.toInt) : v = n := BitVec.toInt_inj.1 h
  refine ⟨fun h => ?_, fun h hpos => ?_, fun h hlt => ?_, fun h => ?_, fun h => ?_, fun h => ?_, fun h hempty => ?_,
    fun h w hheld => ?_, fun h => ?_, fun h w hin hparse => ?_⟩
  · obtain rfl : v = 0#32 := hcell h
    rw [exec_executeValue_eq (i := .endLoop) hv h (by decide), exec_endLoop_of_zero hv]
  · rw [exec_executeValue_eq (i := .decrementPointer) hv h (by decide)]
    exact (decrementPointerMovesOrOverflows s).1 hpos
  · rw [exec_executeValue_eq (i := .incrementPointer) hv h (by decide)]
    exact (incrementPointerMovesOrOverflows s).1 hlt
  · obtain rfl : v = 4#32 := hcell h
    rw [exec_executeValue_eq (i := .readOrWrite) hv h (by decide), exec_readOrWrite_of_ne_zero hv (by decide)]
    rfl
  · obtain h | h | h := h
    · obtain rfl : v = 5#32 := hcell h
      rw [exec_executeValue_eq (i := .decrementByte) hv h (by decide), exec_decrementByte_of_read hv]
      exact storeCurrentCell_of_lt 4#32 hptr hwf
    · obtain rfl : v = 6#32 := hcell h
      rw [exec_executeValue_eq (i := .incrementByte) hv h (by decide), exec_incrementByte_of_read hv]
      exact storeCurrentCell_of_lt 7#32 hptr hwf
    · obtain rfl : v = 8#32 := hcell h
      rw [exec_executeValue_eq (i := .setZero) hv h (by decide)]
      exact setZeroClearsTheCell s hwf hptr
  · obtain rfl : v = 7#32 := hcell h
    rw [exec_executeValue_eq (i := .beginLoop) hv h (by decide), exec_beginLoop_of_ne_zero hv (by decide)]
  · obtain rfl : v = 9#32 := hcell h
    rw [exec_executeValue_eq (i := .copyOrPaste) hv h (by decide)]
    exact copyOrPasteMovesTheWholeCell.1 s _ hempty hv
  · rw [exec_executeValue_eq (i := .copyOrPaste) hv h (by decide)]
    exact copyOrPasteMovesTheWholeCell.2 s w hheld hwf hptr
  · obtain rfl : v = 10#32 := hcell h
    rw [exec_executeValue_eq (i := .writeStdout) hv h (by decide)]
    exact writeStdoutAppendsDecimalText s _ hv
  · rw [exec_executeValue_eq (i := .readStdin) hv h (by decide)]
    exact readStdinStoresTheParsedLine s w hwf hptr hin hparse

end Sys2Proof.Machine
end

section
/-! O48: the table of failures (spec/60_exceptions.md R166). -/

namespace Sys2Proof.Machine

/-- The meaning ends in the failure `k`. -/
def FailsWith (i : Instr) (s : State) (k : Failure) : Prop := ∃ t, exec i s = .next t ∧ t.phase = .failed ∧ t.fail = some k

theorem failsWith_of_exec {i : Instr} {s u : State} {k : Failure} (h : exec i s = .next (u.takeFailure k)) : FailsWith i s k :=
  ⟨_, h, rfl, rfl⟩

theorem State.Inv.read_isSome {s : State} (h : s.Inv) : ∃ v, Tape.read s.mem s.ptr = some v :=
  ⟨_, Tape.read_of_lt s.mem h.ptr_in_tape⟩

theorem failsWith_of_directCause {s : State} {i : Instr} {k : Failure} (hinv : s.Inv) (h : directCause s i k) : FailsWith i s k := by
  unfold directCause at h
  split at h
  · exact failsWith_of_exec ((decrementPointerMovesOrOverflows s).2 h)
  · exact failsWith_of_exec ((incrementPointerMovesOrOverflows s).2 h)
  · obtain ⟨hzero, ⟨b, hb, hbig⟩ | ⟨hend, hp⟩⟩ := h
    · exact ⟨_, readOrWriteRejectsANonAsciiByte s b hzero hb hbig, rfl, rfl⟩
    · exact failsWith_of_exec ((readsAtEndOfInputFollowThePolicies s hend).2.1 hzero hp)
  · obtain ⟨hin, hparse⟩ | ⟨hend, hp⟩ := h
    · exact ⟨_, readStdinRejectsAnUnparsableLine s hin hparse, rfl, rfl⟩
    · exact failsWith_of_exec ((readsAtEndOfInputFollowThePolicies s hend).2.2.1 hp)
  · obtain ⟨hne, hnone⟩ := h
    obtain ⟨v, hv⟩ := hinv.read_isSome
    exact failsWith_of_exec (exec_endLoop_of_unmatched hv (fun h0 => hne (h0 ▸ hv)) hnone)
  · exact failsWith_of_exec (exec_beginLoop_of_unmatched h.1 h.2)
  · exact h.elim

/-- A failure that an instruction has taken has its cause in the table. -/
theorem directCause_of_directNext {s t : State} {i : Instr} {k : Failure} (hinv : s.Inv) (hrun : s.phase = .run)
    (h : DirectNext i s t) (hfailed : t.phase = .failed) (hk : t.fail = some k) : directCause s i k := by
  have hptr := hinv.ptr_in_tape
  have hin := hinv.input_bound
  have hnot {u : State} (hu : u.phase = s.phase) : u.phase ≠ .failed := by rw [hu, hrun]; decide
  have hkind {u : State} {j : Failure} (hj : (u.takeFailure j).fail = some k) : j = k := Option.some.inj hj
  cases i with
  | executeValue => exact h.elim
  | endLoop =>
    obtain ⟨v, hv, ⟨-, rfl⟩ | ⟨hne, ⟨n, -, rfl⟩ | ⟨hnone, rfl⟩⟩⟩ := h
    · exact absurd hfailed (hnot rfl)
    · exact absurd hfailed (hnot rfl)
    · obtain rfl := hkind hk
      exact ⟨by simpa [hv] using hne, hnone⟩
  | beginLoop =>
    obtain ⟨v, hv, ⟨-, rfl⟩ | ⟨rfl, ⟨n, -, rfl⟩ | ⟨hnone, rfl⟩⟩⟩ := h
    · exact absurd hfailed (hnot rfl)
    · exact absurd hfailed (hnot rfl)
    · obtain rfl := hkind hk
      exact ⟨hv, hnone⟩
  | decrementPointer =>
    obtain ⟨hstart, rfl⟩ | ⟨-, rfl⟩ := h
    · obtain rfl := hkind hk
      exact hstart
    · exact absurd hfailed (hnot rfl)
  | incrementPointer =>
    obtain ⟨hend, rfl⟩ | ⟨-, rfl⟩ := h
    · obtain rfl := hkind hk
      have hlast : s.ptr = 29999 := by rw [tapeLen] at hptr; omega
      exact hlast
    · exact absurd hfailed (hnot rfl)
  | readOrWrite =>
    obtain ⟨v, hv, ⟨-, rfl⟩ | ⟨rfl, ⟨b, -, -, m, -, rfl⟩ | ⟨b, hb, hbig, rfl⟩ | ⟨hend, hp, rfl⟩⟩⟩ := h
    · exact absurd hfailed (hnot rfl)
    · exact absurd hfailed (hnot rfl)
    · obtain rfl := hkind hk
      exact ⟨hv, .inl ⟨b, hb, hbig⟩⟩
    · obtain rfl := hkind hk
      exact ⟨hv, .inr ⟨hin.antisymm (List.getElem?_eq_none_iff.1 hend), hp⟩⟩
  | readStdin =>
    obtain ⟨hlt, ⟨v, m, -, -, rfl⟩ | ⟨hparse, rfl⟩⟩ | ⟨hend, hp, rfl⟩ := h
    · exact absurd hfailed (hnot rfl)
    · obtain rfl := hkind hk
      exact .inl ⟨hlt, hparse⟩
    · obtain rfl := hkind hk
      exact .inr ⟨hin.antisymm hend, hp⟩
  | decrementByte => obtain ⟨v, m, -, -, rfl⟩ := h; exact absurd hfailed (hnot rfl)
  | incrementByte => obtain ⟨v, m, -, -, rfl⟩ := h; exact absurd hfailed (hnot rfl)
  | setZero => obtain ⟨m, -, rfl⟩ := h; exact absurd hfailed (hnot rfl)
  | copyOrPaste => obtain ⟨-, v, -, rfl⟩ | ⟨v, m, -, -, rfl⟩ := h <;> exact absurd hfailed (hnot rfl)
  | writeStdout => obtain ⟨v, -, rfl⟩ := h; exact absurd hfailed (hnot rfl)

/-- An instruction other than ExecuteValue fails exactly for its direct causes. -/
theorem failsWith_iff_directCause {s : State} {i : Instr} {k : Failure} (hinv : s.Inv) (hrun : s.phase = .run)
    (hi : i ≠ .executeValue) : FailsWith i s k ↔ directCause s i k :=
  ⟨fun ⟨_, ht, hfailed, hk⟩ => directCause_of_directNext hinv hrun (exec_next hi ht) hfailed hk, failsWith_of_directCause hinv⟩

theorem failureCause_of_ne {s : State} {i : Instr} {k : Failure} (hi : i ≠ .executeValue) :
    failureCause s i k ↔ directCause s i k := by
  cases i with
  | executeValue => exact absurd rfl hi
  | _ => exact Iff.rfl

/-- ExecuteValue fails at one of its checks, or as the instruction it dispatches. -/
theorem failsWith_executeValue_iff {s : State} {k : Failure} (hinv : s.Inv) (hrun : s.phase = .run) :
    FailsWith .executeValue s k ↔ failureCause s .executeValue k := by
  constructor
  · rintro ⟨t, ht, hfailed, hk⟩
    obtain ⟨v, hv, ⟨hrange, rfl⟩ | ⟨hself, rfl⟩ | ⟨j, hj, hne, hexec⟩⟩ := exec_executeValue_next ht
    · exact ⟨v, hv, .inl ⟨(Option.some.inj hk).symm, hrange⟩⟩
    · exact ⟨v, hv, .inr (.inl ⟨(Option.some.inj hk).symm, (instrOfCode_eq_some_iff.1 hself).symm⟩)⟩
    · exact ⟨v, hv, .inr (.inr ⟨j, hj, (failsWith_iff_directCause hinv hrun hne).1 ⟨t, hexec, hfailed, hk⟩⟩)⟩
  · rintro ⟨v, hv, ⟨rfl, hrange⟩ | ⟨rfl, hself⟩ | ⟨j, hj, hcause⟩⟩
    · exact failsWith_of_exec (exec_executeValue_of_invalidCode hv hrange)
    · exact failsWith_of_exec (exec_executeValue_of_code hv hself)
    · have hne : j ≠ .executeValue := by rintro rfl; exact hcause.elim
      rw [FailsWith, exec_executeValue_eq hv (instrOfCode_eq_some_iff.1 hj).symm hne]
      exact (failsWith_iff_directCause hinv hrun hne).2 hcause

/-- Settles O48: the direct causes of eleven instructions, and ExecuteValue by what it checks and dispatches. -/
theorem failureCausesAreExactlyTheTable : Obligations.FailureCausesAreExactlyTheTable := by
  intro s i k hinv hrun
  by_cases hi : i = .executeValue
  · subst hi
    exact failsWith_executeValue_iff hinv hrun
  · exact (failsWith_iff_directCause hinv hrun hi).trans (failureCause_of_ne hi).symm

end Sys2Proof.Machine
end

section
/-! O56: a step is enabled but for a read stuck on exhausted input (spec/41_vm_cycle.md R101; spec/45_io.md R135). -/

namespace Sys2Proof.Machine

/-! ### No meaning refuses -/

theorem withCurrentCell_ne_refused {s : State} {k : CellVal → Result} {r : Refusal} (h : ∀ v, k v ≠ .refused r) :
    withCurrentCell s k ≠ .refused r := by
  unfold withCurrentCell
  split
  · exact h _
  · nofun

theorem storeCurrentCell_ne_refused (v : CellVal) (s : State) (r : Refusal) : storeCurrentCell v s ≠ .refused r := by
  unfold storeCurrentCell
  split <;> nofun

theorem storeParsedLine_ne_refused (line : List Byte) (s : State) (r : Refusal) : storeParsedLine line s ≠ .refused r := by
  unfold storeParsedLine
  split
  · exact storeCurrentCell_ne_refused _ _ r
  · nofun

theorem readPath_ne_refused (s : State) (r : Refusal) : readPath s ≠ .refused r := by
  unfold readPath
  split
  · split
    · exact storeCurrentCell_ne_refused _ _ r
    · nofun
  · split <;> nofun

theorem execReadStdin_ne_refused (s : State) (r : Refusal) : execReadStdin s ≠ .refused r := by
  unfold execReadStdin
  split
  · exact storeParsedLine_ne_refused _ _ r
  · split
    · exact storeParsedLine_ne_refused _ _ r
    · nofun

/-- No instruction other than ExecuteValue is refused. -/
theorem exec_ne_refused_of_ne {i : Instr} (s : State) (r : Refusal) (hi : i ≠ .executeValue) : exec i s ≠ .refused r := by
  cases i with
  | executeValue => exact absurd rfl hi
  | endLoop =>
    refine withCurrentCell_ne_refused fun v => ?_
    split
    · nofun
    · split <;> nofun
  | beginLoop =>
    refine withCurrentCell_ne_refused fun v => ?_
    split
    · split <;> nofun
    · nofun
  | decrementPointer => simp only [exec, execDecrementPointer]; split <;> nofun
  | incrementPointer => simp only [exec, execIncrementPointer]; split <;> nofun
  | readOrWrite =>
    refine withCurrentCell_ne_refused fun v => ?_
    split
    · exact readPath_ne_refused s r
    · nofun
  | decrementByte => exact withCurrentCell_ne_refused fun v => storeCurrentCell_ne_refused _ s r
  | incrementByte => exact withCurrentCell_ne_refused fun v => storeCurrentCell_ne_refused _ s r
  | setZero => exact storeCurrentCell_ne_refused _ s r
  | copyOrPaste =>
    simp only [exec, execCopyOrPaste]
    split
    · exact withCurrentCell_ne_refused fun v => nofun
    · exact storeCurrentCell_ne_refused _ _ r
  | writeStdout => exact withCurrentCell_ne_refused fun v => nofun
  | readStdin => exact execReadStdin_ne_refused s r

theorem exec_ne_refused (i : Instr) (s : State) (r : Refusal) : exec i s ≠ .refused r := by
  by_cases hi : i = .executeValue
  · subst hi
    refine withCurrentCell_ne_refused fun v => ?_
    split
    · nofun
    · split
      case h_1 j _ =>
        by_cases hj : j = .executeValue
        · subst hj; nofun
        · exact dispatchCode_of_ne s hj ▸ exec_ne_refused_of_ne s r hj
      case h_2 => nofun
  · exact exec_ne_refused_of_ne s r hi

/-! ### The stuck reads -/

/-- The machine, acting as `i`, is stuck on a read with the whole input consumed (45 R135). -/
def StuckRead (s : State) (i : Instr) (r : Fault) : Prop :=
  (r = .stuckOnByteRead ∧ i = .readOrWrite ∧ s.inPos = s.par.input.length ∧ s.par.eofByte = .stuck ∧
    Tape.read s.mem s.ptr = some 0#32) ∨
  (r = .stuckOnLineRead ∧ i = .readStdin ∧ s.inPos = s.par.input.length ∧ s.par.eofLine = .stuck)

/-- With the invariant, an instruction faults only as a stuck read. -/
theorem DirectFault.stuckRead {s : State} {i : Instr} {r : Fault} (h : DirectFault i s r) (hinv : s.Inv) : StuckRead s i r := by
  have hptr : ¬ tapeLen ≤ s.ptr := Nat.not_le.2 hinv.ptr_in_tape
  have hin := hinv.input_bound
  cases i with
  | executeValue | decrementPointer | incrementPointer => exact h.elim
  | endLoop | beginLoop | decrementByte | incrementByte | writeStdout | setZero | copyOrPaste => exact absurd h.1 hptr
  | readOrWrite =>
    obtain ⟨hout, -⟩ | ⟨hzero, hend, hp, rfl⟩ := h
    · exact absurd hout hptr
    · exact .inl ⟨rfl, rfl, hin.antisymm (List.getElem?_eq_none_iff.1 hend), hp, hzero⟩
  | readStdin =>
    obtain ⟨-, -, hout, -⟩ | ⟨hend, hp, rfl⟩ := h
    · exact absurd hout hptr
    · exact .inr ⟨rfl, rfl, hin.antisymm hend, hp⟩

/-- With the invariant, a fetched instruction faults only where the step acts as a stuck read. -/
theorem stuckRead_of_exec {s : State} {i : Instr} {r : Fault} (hinv : s.Inv) (hf : s.prog[s.pc]? = some i)
    (he : exec i s = .fault r) : ∃ j, s.actsAs = some j ∧ StuckRead s j r := by
  by_cases hi : i = .executeValue
  · subst hi
    obtain ⟨hnone, -⟩ | ⟨v, j, hv, hj, hne, hexec⟩ := exec_executeValue_fault he
    · obtain ⟨v, hv⟩ := hinv.read_isSome
      rw [hnone] at hv
      cases hv
    · exact ⟨j, (State.actsAs_of_executeValue hf hv).trans hj, (exec_fault hne hexec).stuckRead hinv⟩
  · exact ⟨i, State.actsAs_of_fetch hf hi, (exec_fault hi he).stuckRead hinv⟩

/-- Settles O56: with the invariant there is always something to fetch and a current cell, so only the stuck reads are left. -/
theorem stepIsEnabledUnlessInputIsExhausted : Obligations.StepIsEnabledUnlessInputIsExhausted := by
  intro s hinv
  obtain ⟨-, he⟩ | ⟨-, -, he⟩ | ⟨hs, i, hf, he⟩ | ⟨-, hpc, -⟩ | ⟨-, he⟩ := step_cases s
  · exact .inl ⟨_, he⟩
  · exact .inl ⟨_, he⟩
  · cases hexec : exec i s with
    | next u => exact .inl ⟨_, by rw [he, hexec, finishStep_next]⟩
    | refused r => exact absurd hexec (exec_ne_refused i s r)
    | fault r =>
      rw [hexec, finishStep_fault] at he
      obtain ⟨j, hacts, ⟨rfl, rfl, hend, hp, hzero⟩ | ⟨rfl, rfl, hend, hp⟩⟩ := stuckRead_of_exec hinv hf hexec
      · exact .inr (.inl ⟨he, hs, hacts, hend, hp, hzero⟩)
      · exact .inr (.inr ⟨he, hs, hacts, hend, hp⟩)
  · exact absurd hinv.pc_in_prog (Nat.not_le.2 hpc)
  · exact .inl ⟨_, he⟩

end Sys2Proof.Machine
end

section
/-! O57: the capacity of the program store (spec/00_scope.md R5; spec/40_decoder.md R87). -/

namespace Sys2Proof.Machine

/-- The program so far is a part of the decode, whatever the phase. -/
theorem State.Decoded.length_le {s : State} (h : s.Decoded) : s.prog.length ≤ (decodeProgram s.par.src).length := by
  by_cases hs : s.phase = .decode
  · obtain ⟨-, hdecode, -⟩ := h.scanning hs
    simp [hdecode]
  · rw [h.decoded hs]

theorem State.Decoded.length_le_progMax {s : State} (h : s.Decoded) (hadm : s.par.admitted = true) : s.prog.length ≤ s.par.progMax :=
  calc s.prog.length ≤ (decodeProgram s.par.src).length := h.length_le
    _ ≤ s.par.src.length / 3 := decodeLengthIsAThirdOfTheSource _
    _ ≤ s.par.progMax := of_decide_eq_true hadm

/-- Tokens and nothing else, and then fewer than three bytes that are no letters: the source of length `n` with the longest decode. -/
def densestSource (n : Nat) : List Byte :=
  ((List.replicate (n / 3) (([], .setZero) : List Byte × Instr)).flatMap fun x => x.1 ++ encode x.2) ++ List.replicate (n % 3) 0#8

theorem length_densestSource (n : Nat) : (densestSource n).length = n := by
  simp [densestSource, List.length_flatMap, encode]
  omega

theorem length_decodeProgram_densestSource (n : Nat) : (decodeProgram (densestSource n)).length = n / 3 := by
  have hfiller : ∀ x ∈ List.replicate (n / 3) (([], .setZero) : List Byte × Instr), ∀ b ∈ x.1, isAlphabetByte b = false := by
    intro x hx
    simp [List.eq_of_mem_replicate hx]
  have htail : ∀ b ∈ List.replicate (n % 3) 0#8, isAlphabetByte b = false := by
    intro b hb
    rw [List.eq_of_mem_replicate hb]
    decide
  rw [densestSource, programTextDecodesToTheProgram _ _ hfiller htail, List.length_map, List.length_replicate]

/-- Settles O57: the decode is at most a third of the source, every step keeps it, and a source of tokens alone reaches the bound. -/
theorem programFitsItsStore : Obligations.ProgramFitsItsStore := by
  refine ⟨fun s h hadm => ⟨h.length_le_progMax hadm, fun t ht => ?_⟩, fun n => ?_⟩
  · have hpar : t.par = s.par := (programIsReadOnlyAfterTheDecode s t ht).1
    exact (everyStepKeepsTheDecode s t h ht).length_le_progMax (hpar ▸ hadm)
  · exact ⟨densestSource n, length_densestSource n, length_decodeProgram_densestSource n⟩

end Sys2Proof.Machine
end

section
/-! O28 and O55: what no instruction reads (spec/45_io.md R126; spec/10_state.md R26). A change of the state that every update of `Exec` commutes with and
that leaves all that `Exec` reads commutes with every step of the VM. -/

namespace Sys2Proof.Machine

/-- `g` changes nothing that an instruction reads, and goes past every update an instruction makes. -/
structure Unread (g : State → State) : Prop where
  mem (s : State) : (g s).mem = s.mem
  ptr (s : State) : (g s).ptr = s.ptr
  pc (s : State) : (g s).pc = s.pc
  reg (s : State) : (g s).reg = s.reg
  prog (s : State) : (g s).prog = s.prog
  inPos (s : State) : (g s).inPos = s.inPos
  phase (s : State) : (g s).phase = s.phase
  input (s : State) : (g s).par.input = s.par.input
  parse (s : State) : (g s).par.parse = s.par.parse
  eofByte (s : State) : (g s).par.eofByte = s.par.eofByte
  eofLine (s : State) : (g s).par.eofLine = s.par.eofLine
  setMem (s : State) (m : Tape) : (g s).setMem m = g (s.setMem m)
  setPtr (s : State) (p : Nat) : (g s).setPtr p = g (s.setPtr p)
  setPc (s : State) (n : Nat) : (g s).setPc n = g (s.setPc n)
  setReg (s : State) (r : Option CellVal) : (g s).setReg r = g (s.setReg r)
  setInPos (s : State) (n : Nat) : (g s).setInPos n = g (s.setInPos n)
  setPhase (s : State) (p : Phase) : (g s).setPhase p = g (s.setPhase p)
  output (s : State) (bytes : List Byte) : (g s).output bytes = g (s.output bytes)
  takeFailure (s : State) (k : Failure) : (g s).takeFailure k = g (s.takeFailure k)

/-- What a meaning answers, with `g` applied to the next state, if it answers one. -/
def mapNext (g : State → State) : Result → Result
  | .next t => .next (g t)
  | .fault r => .fault r
  | .refused r => .refused r

@[simp] theorem mapNext_next (g : State → State) (t : State) : mapNext g (.next t) = .next (g t) := rfl
@[simp] theorem mapNext_fault (g : State → State) (r : Fault) : mapNext g (.fault r) = .fault r := rfl
@[simp] theorem mapNext_refused (g : State → State) (r : Refusal) : mapNext g (.refused r) = .refused r := rfl

namespace Unread

variable {g : State → State} (hg : Unread g)
include hg

/-! ### The shared operations -/

theorem withCurrentCell {s : State} {k k' : CellVal → Result} (h : ∀ v, k' v = mapNext g (k v)) :
    withCurrentCell (g s) k' = mapNext g (withCurrentCell s k) := by
  cases hv : Tape.read s.mem s.ptr <;> simp [Machine.withCurrentCell, hg.mem, hg.ptr, hv, h]

theorem storeCurrentCell (v : CellVal) (s : State) : storeCurrentCell v (g s) = mapNext g (storeCurrentCell v s) := by
  cases hm : Tape.write s.mem s.ptr v <;> simp [Machine.storeCurrentCell, hg.mem, hg.ptr, hm, hg.setMem]

theorem storeParsedLine (line : List Byte) (s : State) : storeParsedLine line (g s) = mapNext g (storeParsedLine line s) := by
  cases hl : parseLine s.par.parse line <;> simp [Machine.storeParsedLine, hg.parse, hl, hg.takeFailure, hg.storeCurrentCell]

theorem readPath (s : State) : readPath (g s) = mapNext g (readPath s) := by
  cases hb : s.par.input[s.inPos]? with
  | none => cases he : s.par.eofByte <;> simp [Machine.readPath, takeByte, hg.input, hg.inPos, hb, hg.eofByte, he, hg.takeFailure]
  | some b =>
    by_cases ha : isAscii b = true <;>
      simp [Machine.readPath, takeByte, hg.input, hg.inPos, hb, ha, hg.setInPos, hg.takeFailure, hg.storeCurrentCell]

theorem execReadStdin (s : State) : execReadStdin (g s) = mapNext g (execReadStdin s) := by
  cases hl : s.par.input.drop s.inPos with
  | nil => cases he : s.par.eofLine <;> simp [Machine.execReadStdin, takeLine, hg.input, hg.inPos, hl, hg.eofLine, he, hg.storeParsedLine]
  | cons b rest => simp [Machine.execReadStdin, takeLine, hg.input, hg.inPos, hl, hg.setInPos, hg.storeParsedLine]

theorem postIncrement (s : State) : (g s).postIncrement = g s.postIncrement := by
  by_cases hf : s.phase = .failed <;> simp [State.postIncrement, hg.phase, hg.pc, hf, hg.setPc]

theorem finishStep (r : Result) : finishStep (mapNext g r) = mapNext g (finishStep r) := by
  cases r with
  | next t => simp [hg.postIncrement]
  | fault r => rfl
  | refused r => rfl

/-! ### The instructions and the step -/

theorem exec_of_ne {i : Instr} (s : State) (hi : i ≠ .executeValue) : exec i (g s) = mapNext g (exec i s) := by
  cases i with
  | executeValue => exact absurd rfl hi
  | endLoop =>
    refine hg.withCurrentCell fun v => ?_
    by_cases hv : isZeroCell v = true
    · simp [hv]
    · cases hk : findBwd s.prog s.pc <;> simp [hv, hg.prog, hg.pc, hk, hg.setPc, hg.takeFailure]
  | beginLoop =>
    refine hg.withCurrentCell fun v => ?_
    by_cases hv : isZeroCell v = true
    · cases hk : findFwd s.prog s.pc <;> simp [hv, hg.prog, hg.pc, hk, hg.setPc, hg.takeFailure]
    · simp [hv]
  | decrementPointer =>
    by_cases h : s.ptr = 0 <;> simp [exec, execDecrementPointer, atTapeStart, hg.ptr, h, hg.setPtr, hg.takeFailure]
  | incrementPointer =>
    by_cases h : tapeLen ≤ s.ptr + 1 <;> simp [exec, execIncrementPointer, atTapeEnd, hg.ptr, h, hg.setPtr, hg.takeFailure]
  | readOrWrite =>
    refine hg.withCurrentCell fun v => ?_
    by_cases hv : isZeroCell v = true <;> simp [hv, hg.readPath, hg.output]
  | decrementByte => exact hg.withCurrentCell fun v => hg.storeCurrentCell _ s
  | incrementByte => exact hg.withCurrentCell fun v => hg.storeCurrentCell _ s
  | setZero => exact hg.storeCurrentCell _ s
  | copyOrPaste =>
    cases hr : s.reg with
    | none =>
      rw [exec_copyOrPaste_of_empty hr, exec_copyOrPaste_of_empty (hg.reg s ▸ hr)]
      exact hg.withCurrentCell fun v => congrArg _ (hg.setReg s _)
    | some w =>
      rw [exec_copyOrPaste_of_held hr, exec_copyOrPaste_of_held (hg.reg s ▸ hr), hg.setReg, hg.storeCurrentCell]
  | writeStdout => exact hg.withCurrentCell fun v => congrArg _ (hg.output s _)
  | readStdin => exact hg.execReadStdin s

theorem dispatchCode (i : Instr) (s : State) : dispatchCode i (g s) = mapNext g (dispatchCode i s) := by
  by_cases hi : i = .executeValue
  · subst hi
    exact congrArg _ (hg.takeFailure s _)
  · rw [dispatchCode_of_ne _ hi, dispatchCode_of_ne _ hi, hg.exec_of_ne s hi]

theorem exec (i : Instr) (s : State) : exec i (g s) = mapNext g (exec i s) := by
  by_cases hi : i = .executeValue
  · subst hi
    refine hg.withCurrentCell fun v => ?_
    by_cases hv : isInvalidCode v = true
    · simp [hv, hg.takeFailure]
    · cases hj : instrOfCode v.toInt <;> simp [hv, hg.takeFailure, hg.dispatchCode]
  · exact hg.exec_of_ne s hi

theorem step {s : State} (hs : s.phase ≠ .decode) : step (g s) = mapNext g (step s) := by
  obtain ⟨hdec, -⟩ | ⟨hrun, hpc, he⟩ | ⟨hrun, i, hf, he⟩ | ⟨hrun, hpc, he⟩ | ⟨hend, he⟩ := step_cases s
  · exact absurd hdec hs
  · rw [he, step_of_end (hg.phase s ▸ hrun) (by rw [hg.pc, hg.prog, hpc]), hg.setPhase, mapNext_next]
  · rw [he, step_of_fetch (hg.phase s ▸ hrun) (by rw [hg.prog, hg.pc, hf]), hg.exec, hg.finishStep]
  · rw [he, mapNext_fault]
    simp [Machine.step, hg.phase, hrun, vmStep, hg.pc, hg.prog, hpc.ne', fetch, hpc.le]
  · rw [he, mapNext_next]
    rw [← hg.phase] at hend
    exact hend.elim step_of_done step_of_failed

end Unread

/-! ### The output, and the source with its cursor -/

/-- `s` with `o` written before all that `out` holds. -/
def State.prependOut (o : List Byte) (s : State) : State := { s with out := o ++ s.out }

/-- `s` with another source and another cursor. -/
def State.setSource (c : Nat) (x : List Byte) (s : State) : State := { s with cur := c, par := { s.par with src := x } }

theorem unread_prependOut (o : List Byte) : Unread (State.prependOut o) := by
  constructor
  case output => intro s bytes; simp [State.prependOut, State.output]
  all_goals intros; rfl

theorem unread_setSource (c : Nat) (x : List Byte) : Unread (State.setSource c x) := by
  constructor <;> intros <;> rfl

theorem scanAction_prependOut {s : State} (o : List Byte) (hs : s.phase = .decode) :
    scanAction (s.prependOut o) = (scanAction s).prependOut o := by
  rw [scanAction_eq_of_agree (u := s.prependOut o) hs hs rfl rfl rfl]
  conv_rhs => rw [scanAction_eq_of_agree hs hs rfl rfl rfl]
  rfl

theorem step_prependOut (o : List Byte) (s : State) : step (s.prependOut o) = mapNext (State.prependOut o) (step s) := by
  by_cases hs : s.phase = .decode
  · rw [step_of_decode hs, step_of_decode (s := s.prependOut o) hs, scanAction_prependOut o hs, mapNext_next]
  · exact (unread_prependOut o).step hs

/-- Settles O28: the output written before is unread, by the decoder and by the VM. -/
theorem outputIsNeverReadBack : Obligations.OutputIsNeverReadBack := by
  intro s o
  refine ⟨fun t ht => ?_, fun r hr => ?_, fun r hr => ?_⟩
  · exact (step_prependOut o s).trans (congrArg _ ht)
  · exact (step_prependOut o s).trans (congrArg _ hr)
  · exact (step_prependOut o s).trans (congrArg _ hr)

/-- Settles O55: the source and the cursor are unread by the VM. -/
theorem sourceIsDeadAfterTheDecode : Obligations.SourceIsDeadAfterTheDecode := by
  intro s c x hs
  have hstep := (unread_setSource c x).step hs
  exact ⟨fun t ht => hstep.trans (congrArg _ ht), fun r hr => hstep.trans (congrArg _ hr), fun r hr => hstep.trans (congrArg _ hr)⟩

end Sys2Proof.Machine
end

section
/-! O25: decimal text (spec/45_io.md R128). -/

namespace Sys2Proof.Machine

theorem isDigitByte_iff (b : Byte) : isDigitByte b = true ↔ 0x30 ≤ b.toNat ∧ b.toNat ≤ 0x39 := by
  simp [isDigitByte]

theorem toNat_digitByte {n : Nat} (h : n < 10) : (digitByte n).toNat = 0x30 + n := by
  rw [digitByte, BitVec.toNat_ofNat]
  omega

/-- The canonical decimal digits of `n`: digits only, at least one, of value `n`, and no leading zero but the single digit 0 (45 R128). -/
structure IsDecimal (n : Nat) (ds : List Byte) : Prop where
  ne_nil : ds ≠ []
  digits : ∀ b ∈ ds, isDigitByte b = true
  value : digitsValue ds = n
  no_leading_zero : ds.head? = some 0x30#8 → ds = [0x30#8]

theorem isDecimal_digit {n : Nat} (h : n < 10) : IsDecimal n [digitByte n] := by
  have hbyte := toNat_digitByte h
  refine ⟨by simp, ?_, ?_, by simp⟩
  · simp only [List.mem_singleton, forall_eq, isDigitByte_iff, hbyte]
    omega
  · simp [digitsValue, hbyte]

/-- Another digit after those of a positive number. -/
theorem IsDecimal.concat {n : Nat} {ds : List Byte} (h : IsDecimal (n / 10) ds) (hn : 10 ≤ n) :
    IsDecimal n (ds ++ [digitByte (n % 10)]) := by
  have hlast := isDecimal_digit (Nat.mod_lt n (show 0 < 10 by decide))
  refine ⟨by simp, ?_, ?_, fun hhead => ?_⟩
  · rw [List.forall_mem_append]
    exact ⟨h.digits, hlast.digits⟩
  · have hvalue : digitsValue (ds ++ [digitByte (n % 10)]) = 10 * digitsValue ds + ((digitByte (n % 10)).toNat - 0x30) := by
      simp [digitsValue]
    rw [hvalue, h.value, toNat_digitByte (Nat.mod_lt n (by decide))]
    omega
  · rw [List.head?_append_of_ne_nil _ h.ne_nil] at hhead
    have hzero : n / 10 = 0 := h.value.symm.trans (by rw [h.no_leading_zero hhead]; rfl)
    omega

theorem decDigits_of_lt_ten {n : Nat} (fuel : Nat) (h : n < 10) : decDigits fuel n = [digitByte n] := by
  cases fuel <;> simp [decDigits, h, Nat.mod_eq_of_lt h]

theorem decDigits_of_ten_le {n : Nat} (fuel : Nat) (h : 10 ≤ n) :
    decDigits (fuel + 1) n = decDigits fuel (n / 10) ++ [digitByte (n % 10)] := by
  simp [decDigits, Nat.not_lt.2 h]

/-- With fuel for all its digits but one, the text of a number is canonical, and no longer than the fuel allows. -/
theorem isDecimal_decDigits {fuel n : Nat} (h : n < 10 ^ (fuel + 1)) :
    IsDecimal n (decDigits fuel n) ∧ (decDigits fuel n).length ≤ fuel + 1 := by
  induction fuel generalizing n with
  | zero =>
    rw [decDigits_of_lt_ten 0 h]
    exact ⟨isDecimal_digit h, le_rfl⟩
  | succ fuel ih =>
    by_cases hn : n < 10
    · rw [decDigits_of_lt_ten _ hn]
      exact ⟨isDecimal_digit hn, by simp⟩
    · obtain ⟨hdec, hlen⟩ := ih (Nat.div_lt_of_lt_mul (by rwa [← Nat.pow_succ']))
      rw [decDigits_of_ten_le _ (Nat.not_lt.1 hn)]
      exact ⟨hdec.concat (Nat.not_lt.1 hn), by simpa using hlen⟩

/-- The digits in the decimal text of a cell, those of its absolute value. -/
theorem isDecimal_natAbs (v : CellVal) :
    IsDecimal v.toInt.natAbs (decDigits 9 v.toInt.natAbs) ∧ (decDigits 9 v.toInt.natAbs).length ≤ 10 := by
  have hv := toInt_bounds v
  exact isDecimal_decDigits (by omega)

/-- A cell's text is its sign and the digits of its absolute value. -/
theorem decString_eq (v : CellVal) :
    decString v = (if v.toInt < 0 then [0x2D#8] else []) ++ decDigits 9 v.toInt.natAbs := by
  by_cases h : v.toInt < 0 <;> simp [decString, h]

/-- Settles O25: the sign, and canonical digits of the absolute value, which is below 10^10. -/
theorem decimalTextIsCanonical : Obligations.DecimalTextIsCanonical := by
  intro v
  obtain ⟨hdec, hlen⟩ := isDecimal_natAbs v
  refine ⟨_, decString_eq v, hdec.ne_nil, fun b hb => (isDigitByte_iff b).1 (hdec.digits b hb), hdec.value, hdec.no_leading_zero, ?_⟩
  rw [decString_eq, List.length_append]
  split <;> simp <;> omega

end Sys2Proof.Machine
end

section
/-! O30 and O31: PARSE_LINE reads back decimal text under both bindings (spec/45_io.md R131). -/

namespace Sys2Proof.Machine

/-! ### Lines of digits -/

theorem ne_of_isDigitByte {a b : Byte} (ha : isDigitByte a = false) (hb : isDigitByte b = true) : b ≠ a := by
  rintro rfl
  rw [ha] at hb
  cases hb

theorem isBlankByte_of_isDigitByte {b : Byte} (h : isDigitByte b = true) : isBlankByte b = false := by
  simp [isBlankByte, ne_of_isDigitByte (a := 0x20#8) (by decide) h, ne_of_isDigitByte (a := 0x09#8) (by decide) h]

/-- A byte of a cell's text is a digit or the minus sign. -/
theorem mem_decString {v : CellVal} {b : Byte} (h : b ∈ decString v) : isDigitByte b = true ∨ b = 0x2D#8 := by
  rw [decString_eq, List.mem_append] at h
  obtain h | h := h
  · split at h
    · exact .inr (List.mem_singleton.1 h)
    · cases h
  · exact .inl ((isDecimal_natAbs v).1.digits b h)

theorem isBlankByte_of_mem_decString {v : CellVal} {b : Byte} (h : b ∈ decString v) : isBlankByte b = false := by
  obtain h | rfl := mem_decString h
  · exact isBlankByte_of_isDigitByte h
  · decide

theorem ne_lineFeed_of_mem_decString {v : CellVal} {b : Byte} (h : b ∈ decString v) : b ≠ 0x0A#8 := by
  rintro rfl
  obtain h | h := mem_decString h <;> exact absurd h (by decide)

theorem ne_carriageReturn_of_mem_decString {v : CellVal} {b : Byte} (h : b ∈ decString v) : b ≠ 0x0D#8 := by
  rintro rfl
  obtain h | h := mem_decString h <;> exact absurd h (by decide)

/-- A cell's text holds a digit. -/
theorem exists_digit_mem_decString (v : CellVal) : ∃ b ∈ decString v, isDigitByte b = true := by
  obtain ⟨hdec, -⟩ := isDecimal_natAbs v
  obtain ⟨b, hb⟩ := List.exists_mem_of_ne_nil _ hdec.ne_nil
  exact ⟨b, by rw [decString_eq]; exact List.mem_append_right _ hb, hdec.digits b hb⟩

/-! ### Trimming -/

theorem dropTrailing_concat (b : Byte) (l : List Byte) : dropTrailing b (l ++ [b]) = l := by
  simp [dropTrailing]

theorem dropTrailing_of_forall_ne {b : Byte} {l : List Byte} (h : ∀ x ∈ l, x ≠ b) : dropTrailing b l = l := by
  have hlast : l.getLast? ≠ some b := fun hl => h b (List.mem_of_getLast? hl) rfl
  simp [dropTrailing, hlast]

/-- What dropping a trailing byte can have dropped. -/
theorem eq_of_dropTrailing {b : Byte} {l k : List Byte} (h : dropTrailing b l = k) : l = k ∨ l = k ++ [b] := by
  unfold dropTrailing at h
  split at h
  case isTrue hlast => exact .inr (h ▸ (List.dropLast_append_getLast? b hlast).symm)
  case isFalse => exact .inl h

theorem dropWhile_isBlankByte_of_none {l : List Byte} (h : ∀ b ∈ l, isBlankByte b = false) : l.dropWhile isBlankByte = l := by
  cases l with
  | nil => rfl
  | cons b l => simp [h b List.mem_cons_self]

theorem trimBlanks_of_none {l : List Byte} (h : ∀ b ∈ l, isBlankByte b = false) : trimBlanks l = l := by
  rw [trimBlanks, dropWhile_isBlankByte_of_none h, dropWhile_isBlankByte_of_none (by simpa using h), List.reverse_reverse]

theorem mem_of_mem_dropTrailing {a b : Byte} {l : List Byte} (h : a ∈ dropTrailing b l) : a ∈ l := by
  unfold dropTrailing at h
  split at h
  · exact List.mem_of_mem_dropLast h
  · exact h

theorem mem_of_mem_trimBlanks {b : Byte} {l : List Byte} (h : b ∈ trimBlanks l) : b ∈ l := by
  rw [trimBlanks, List.mem_reverse] at h
  exact (List.dropWhile_sublist _).mem (List.mem_reverse.1 ((List.dropWhile_sublist _).mem h))

/-! ### Signed literals -/

theorem parseDigits_of_isDecimal {n : Nat} {ds : List Byte} (h : IsDecimal n ds) : parseDigits ds = some n := by
  have hall : ds.all isDigitByte = true := List.all_eq_true.2 h.digits
  simp [parseDigits, h.ne_nil, hall, h.value]

theorem parseSigned_minus {n : Nat} {ds : List Byte} (h : IsDecimal n ds) : parseSigned (0x2D#8 :: ds) = some (-(n : Int)) := by
  simp [parseSigned, parseDigits_of_isDecimal h]

theorem parseSigned_of_isDecimal {n : Nat} {ds : List Byte} (h : IsDecimal n ds) : parseSigned ds = some (n : Int) := by
  cases ds with
  | nil => exact absurd rfl h.ne_nil
  | cons b ds =>
    have hb : isDigitByte b = true := h.digits b List.mem_cons_self
    have hplus : b ≠ 0x2B#8 := ne_of_isDigitByte (by decide) hb
    have hminus : b ≠ 0x2D#8 := ne_of_isDigitByte (by decide) hb
    simp [parseSigned, hplus, hminus, parseDigits_of_isDecimal h]

theorem parseSigned_decString (v : CellVal) : parseSigned (decString v) = some v.toInt := by
  obtain ⟨hdec, -⟩ := isDecimal_natAbs v
  rw [decString_eq]
  split
  case isTrue hneg => exact (parseSigned_minus hdec).trans (congrArg some (by omega))
  case isFalse hpos => exact (parseSigned_of_isDecimal hdec).trans (congrArg some (by omega))

theorem cellOfInt_toInt (v : CellVal) : cellOfInt v.toInt = some v := by
  rw [cellOfInt, if_pos (toInt_bounds v), wrap32, BitVec.ofInt_toInt]

theorem parseDigits_eq_none {l : List Byte} (h : ∀ b ∈ l, isDigitByte b = false) : parseDigits l = none := by
  cases l with
  | nil => rfl
  | cons b l => simp [parseDigits, h b List.mem_cons_self]

/-- A literal needs a digit. -/
theorem parseSigned_eq_none {l : List Byte} (h : ∀ b ∈ l, isDigitByte b = false) : parseSigned l = none := by
  cases l with
  | nil => rfl
  | cons b l =>
    have hl := parseDigits_eq_none fun a ha => h a (List.mem_cons_of_mem b ha)
    simp [parseSigned, hl, parseDigits_eq_none h]

/-! ### P1: decimal text, with or without a line feed, is read back -/

theorem dropTrailing_lineFeed_eq_decString_iff {v : CellVal} {line : List Byte} :
    dropTrailing 0x0A#8 line = decString v ↔ line = decString v ∨ line = decString v ++ [0x0A#8] := by
  refine ⟨eq_of_dropTrailing, ?_⟩
  rintro (rfl | rfl)
  · exact dropTrailing_of_forall_ne fun _ => ne_lineFeed_of_mem_decString
  · exact dropTrailing_concat _ _

theorem parseRecommended_of_decString {v : CellVal} {line : List Byte} (h : dropTrailing 0x0A#8 line = decString v) :
    parseRecommended line = some v := by
  rw [parseRecommended, h, dropTrailing_of_forall_ne fun _ => ne_carriageReturn_of_mem_decString,
    trimBlanks_of_none fun _ => isBlankByte_of_mem_decString, parseSigned_decString]
  exact cellOfInt_toInt v

theorem parseForced_eq_some_iff {v : CellVal} {line : List Byte} :
    parseForced line = some v ↔ dropTrailing 0x0A#8 line = decString v := by
  constructor
  · intro h
    obtain ⟨w, -, hw⟩ := Option.bind_eq_some_iff.1 h
    split at hw
    · cases hw; assumption
    · cases hw
  · intro h
    simp [parseForced, parseRecommended_of_decString h, h]

theorem parseAnyAdmitted_of_decString {v : CellVal} {line : List Byte} (h : dropTrailing 0x0A#8 line = decString v) :
    parseAnyAdmitted line = some v := by
  obtain ⟨b, hb, hdigit⟩ := exists_digit_mem_decString v
  have hany : line.any isDigitByte = true := List.any_eq_true.2 ⟨b, mem_of_mem_dropTrailing (h ▸ hb), hdigit⟩
  rw [parseAnyAdmitted, if_pos hany, parseForced_eq_some_iff.2 h]

theorem parseLine_of_decString (binding : ParseBinding) {v : CellVal} {line : List Byte}
    (h : line = decString v ∨ line = decString v ++ [0x0A#8]) : parseLine binding line = some v := by
  rw [← dropTrailing_lineFeed_eq_decString_iff] at h
  cases binding with
  | recommended => exact parseRecommended_of_decString h
  | anyAdmitted => exact parseAnyAdmitted_of_decString h

/-! ### P2: a line with no digit is no integer -/

theorem parseRecommended_of_no_digit {line : List Byte} (h : ∀ b ∈ line, isDigitByte b = false) : parseRecommended line = none := by
  have hnone := parseSigned_eq_none (l := trimBlanks (dropTrailing 0x0D#8 (dropTrailing 0x0A#8 line)))
    fun b hb => h b (mem_of_mem_dropTrailing (mem_of_mem_dropTrailing (mem_of_mem_trimBlanks hb)))
  rw [parseRecommended, hnone, Option.bind_none]

theorem parseAnyAdmitted_of_no_digit {line : List Byte} (h : ∀ b ∈ line, isDigitByte b = false) : parseAnyAdmitted line = none := by
  have hany : line.any isDigitByte = false := by simpa using h
  simp [parseAnyAdmitted, hany]

/-- Settles O30: both bindings read decimal text back, and both need a digit. -/
theorem parseLineHasItsRequiredProperties : Obligations.ParseLineHasItsRequiredProperties := by
  intro binding
  refine ⟨fun v => ⟨parseLine_of_decString binding (.inr rfl), parseLine_of_decString binding (.inl rfl)⟩, fun line h => ?_⟩
  simp only [← isDigitByte_iff, Bool.not_eq_true] at h
  cases binding with
  | recommended => exact parseRecommended_of_no_digit h
  | anyAdmitted => exact parseAnyAdmitted_of_no_digit h

/-- Settles O31: the binding has P1 and P2 too, and everywhere else it is the free value. -/
theorem anyAdmittedBindingIsGeneral : Obligations.AnyAdmittedBindingIsGeneral := by
  intro f htext hnodigit line hfree
  by_cases hany : line.any isDigitByte = true
  · cases hforced : parseForced line with
    | some v =>
      have hline := dropTrailing_lineFeed_eq_decString_iff.1 (parseForced_eq_some_iff.1 hforced)
      rw [parseLine_of_decString .anyAdmitted hline]
      obtain ⟨hfeed, hplain⟩ := htext v
      obtain rfl | rfl := hline
      · exact hplain
      · exact hfeed
    | none => rw [hfree, parseLine, parseAnyAdmitted, if_pos hany, hforced]
  · have hdigit : ∀ b ∈ line, isDigitByte b = false := by simpa using hany
    have hno : ∀ b ∈ line, ¬ (0x30 ≤ b.toNat ∧ b.toNat ≤ 0x39) := fun b hb => by
      rw [← isDigitByte_iff, hdigit b hb]
      decide
    rw [hnodigit line hno]
    exact (parseAnyAdmitted_of_no_digit hdigit).symm

end Sys2Proof.Machine
end

section
/-! O34: ReadStdin on decimal text (spec/45_io.md R129 to R131). -/

namespace Sys2Proof.Machine

/-- Settles O34: the line is the text and the line feed, and it parses to the value. -/
theorem readStdinReadsBackDecimalText : Obligations.ReadStdinReadsBackDecimalText := by
  intro s v rest hwf hptr hdrop
  have hline : firstLine (s.par.input.drop s.inPos) = decString v ++ [0x0A#8] := by
    rw [hdrop, firstLine_append_lineFeed rest fun _ => ne_lineFeed_of_mem_decString]
  have hin : s.inPos < s.par.input.length := by
    have hlen := congrArg List.length hdrop
    simp only [List.length_drop, List.length_append, List.length_cons] at hlen
    omega
  have hparse : parseLine s.par.parse (firstLine (s.par.input.drop s.inPos)) = some v :=
    hline ▸ parseLine_of_decString s.par.parse (.inr rfl)
  obtain ⟨m, hexec, -, hread, hframe⟩ := readStdinStoresTheParsedLine s v hwf hptr hin hparse
  rw [hline, List.length_append, List.length_singleton, ← Nat.add_assoc] at hexec
  refine ⟨m, _, hexec, rfl, ?_, hread, hframe⟩
  show s.par.input.drop (s.inPos + (decString v).length + 1) = rest
  rw [Nat.add_assoc, ← List.drop_drop, hdrop, List.drop_length_add_append]
  rfl

end Sys2Proof.Machine
end

section
/-! O1, O2 and O5: the encoding table in both directions, and the packed token (spec/30_encoding.md R60 to R72; spec/70_reset_and_hazards.md R193). -/

namespace Sys2Proof.Machine

theorem decode_encode (i : Instr) : decode (encode i) = .ok (i, []) := decode_encode_append i []

/-- Settles O1: each of the seven is the token of the instruction named. -/
theorem sourcedTokensDecode : Obligations.SourcedTokensDecode :=
  ⟨decode_encode .endLoop, decode_encode .beginLoop, decode_encode .setZero, decode_encode .incrementByte,
   decode_encode .writeStdout, decode_encode .copyOrPaste, decode_encode .incrementPointer⟩

/-- The integers that name an instruction are 0 to 11 (30 R64, R67). -/
theorem exists_instrOfCode_iff {n : Int} : (∃ i, instrOfCode n = some i) ↔ 0 ≤ n ∧ n ≤ 11 := by
  constructor
  · rintro ⟨i, hi⟩
    have hcode := instrOfCode_eq_some_iff.1 hi
    have := code_le_eleven i
    omega
  · rintro ⟨h0, h11⟩
    have hn : (wrap32 n).toInt = n := toInt_wrap32_of_bounds (by omega) (by omega)
    have hvalid : ¬ isInvalidCode (wrap32 n) = true := by
      simp only [isInvalidCode, hn, Bool.or_eq_true, decide_eq_true_eq]
      omega
    exact Option.ne_none_iff_exists'.1 (hn ▸ instrOfCode_of_valid hvalid)

/-- Settles O2: both searches of the table answer exactly the instruction whose entry they are given. -/
theorem encodingTableIsBijective : Obligations.EncodingTableIsBijective := by
  refine ⟨fun b0 b1 b2 i => instrOfToken_eq_some_iff, fun n i => instrOfCode_eq_some_iff, fun n => exists_instrOfCode_iff, fun c => ?_⟩
  simp only [instrOfStoredCode, exists_instrOfCode_iff, storedCodeWf, decide_eq_true_eq]
  omega

theorem packedToken_lt (i : Instr) : packedToken i < 2 ^ 24 := by
  have h0 := (tokenBytes i).1.isLt
  have h1 := (tokenBytes i).2.1.isLt
  have h2 := (tokenBytes i).2.2.isLt
  rw [packedToken]
  omega

theorem byte_ofNat_eq {b : Byte} {n : Nat} (h : n % 256 = b.toNat) : BitVec.ofNat 8 n = b :=
  BitVec.eq_of_toNat_eq (by rw [BitVec.toNat_ofNat, ← h])

/-- The three bytes come out of the packed token in source order (30 R61). -/
theorem bytesOfPacked_packedToken (i : Instr) : bytesOfPacked (packedToken i) = encode i := by
  have h0 := (tokenBytes i).1.isLt
  have h1 := (tokenBytes i).2.1.isLt
  have h2 := (tokenBytes i).2.2.isLt
  have hbytes : encode i = [(tokenBytes i).1, (tokenBytes i).2.1, (tokenBytes i).2.2] := rfl
  rw [hbytes, bytesOfPacked, packedToken, byte_ofNat_eq (b := (tokenBytes i).1) (by omega),
    byte_ofNat_eq (b := (tokenBytes i).2.1) (by omega), byte_ofNat_eq (b := (tokenBytes i).2.2) (by omega)]

theorem decodeTableWord_packedToken (i : Instr) : decodeTableWord 24 (packedToken i) = some i := by
  rw [decodeTableWord, Nat.mod_eq_of_lt (packedToken_lt i), if_pos (packedToken_lt i), bytesOfPacked_packedToken, decode_encode]

/-- An element put after the first `n` of a list, or after all of them, is found there. -/
theorem getElem?_take_append_singleton (p r : List Instr) (n : Nat) (i : Instr) : (p.take n ++ [i] ++ r)[min n p.length]? = some i := by
  simp [List.append_assoc]

/-- Settles O5: the token comes out of its packing, and the placed program is the old one with the instruction at the index of the fetch. -/
theorem placedWordIsFetched : Obligations.PlacedWordIsFetched := by
  refine ⟨decodeTableWord_packedToken, fun s w i hw => ⟨_, _, rfl, rfl, getElem?_take_append_singleton _ _ _ i, fun hpc => ?_, ?_⟩⟩
  · rw [List.set_eq_take_append_cons_drop, if_pos hpc, List.append_assoc, List.singleton_append]
  · rw [State.withFetchWord, hw]
    rfl

end Sys2Proof.Machine
end

section
/-! O49 to O51: the status interface and the state after reset (spec/10_state.md R31; spec/60_exceptions.md R166). -/

namespace Sys2Proof.Machine

theorem State.status_of_none {s : State} (h : s.fail = none) : s.status = (s.phase, 0) := by
  simp [State.status, h]

theorem State.status_of_some {s : State} {k : Failure} (h : s.fail = some k) : s.status = (s.phase, k.number) := by
  simp [State.status, h]

/-- Settles O49: the status gives the number of the kind. -/
theorem statusNumbersTheFailures : Obligations.StatusNumbersTheFailures := fun _ =>
  ⟨State.status_of_none, State.status_of_some, State.status_of_some, State.status_of_some, State.status_of_some,
   State.status_of_some, State.status_of_some, State.status_of_some⟩

/-- Settles O50: the empty tape reads 0 everywhere, and every other element is given its value. -/
theorem resetGivesEveryElementItsValue : Obligations.ResetGivesEveryElementItsValue :=
  fun _ => ⟨fun _ ha => Tape.read_of_lt [] ha, rfl, rfl, rfl, rfl, rfl, rfl, rfl, rfl, rfl, rfl⟩

theorem inv_resetWith (par : Params) : (State.resetWith par).Inv where
  ptr_in_tape := (by decide : 0 < 30000)
  pc_in_prog := le_rfl
  mem_wf := Tape.wf_reset par
  fail_iff := iff_of_false nofun nofun
  done_at_end := nofun
  input_bound := Nat.zero_le _
  cursor_bound := Nat.zero_le _

theorem decoded_resetWith (par : Params) : (State.resetWith par).Decoded where
  scanning _ := ⟨rfl, rfl, le_rfl⟩
  decoded h := absurd rfl h

/-- Settles O51: nothing is decoded yet, and every index is at 0. -/
theorem resetMeetsTheInvariants : Obligations.ResetMeetsTheInvariants :=
  fun par => ⟨inv_resetWith par, decoded_resetWith par⟩

end Sys2Proof.Machine
end
